-- ==== Sys2Proof/Word.lean ====
section
/-! DEFINITION. The word types of the machine (00_scope.md R5, R7; 30_encoding.md R72). All values are unsigned. -/

namespace Sys2Proof

/-- A general register, a timer, a byte of memory (R5 `XLEN`, `TLEN`; R51). -/
abbrev Byte := BitVec 8

/-- `I`, `PC`, a stack entry, an instruction word (R5 `ILEN`, `PCLEN`, `STACK_WIDTH`; R70). -/
abbrev Word := BitVec 16

/-- A 4-bit field of an instruction word: `op`, `n` (R72). -/
abbrev Nibble := BitVec 4

/-- The 12-bit address immediate `nnn` (R72). -/
abbrev Addr := BitVec 12

/-- A register number, from a 4-bit field, so that no number is out of range (R20). -/
abbrev RegIdx := Fin 16

/-- A key number 0x0 to 0xF (R29). -/
abbrev KeyIdx := Fin 16

end Sys2Proof
end

