-- ==== Sys2Proof/Syntax.lean ====
section
/-! DEFINITION. The instructions: one constructor per row of spec/opcode_table.json, in the table's order
(30_encoding.md R76). Operands are the fields of R72; the docstring gives the table's mnemonic and the rule of its
meaning. -/

namespace Sys2Proof

inductive Instr where
  /-- `clear-screen`, 00E0 (R150). -/
  | clearScreen
  /-- `return`, 00EE (R101). -/
  | returnSub
  /-- `jump`, 1nnn (R102). -/
  | jump (nnn : Addr)
  /-- `call`, 2nnn (R103). -/
  | call (nnn : Addr)
  /-- `skip-if-eq-imm`, 3xnn (R110). -/
  | skipIfEqImm (x : RegIdx) (nn : Byte)
  /-- `skip-if-ne-imm`, 4xnn (R111). -/
  | skipIfNeImm (x : RegIdx) (nn : Byte)
  /-- `skip-if-eq-reg`, 5xy0 (R112). -/
  | skipIfEqReg (x y : RegIdx)
  /-- `load-imm`, 6xnn (R120). -/
  | loadImm (x : RegIdx) (nn : Byte)
  /-- `add-imm`, 7xnn (R121). -/
  | addImm (x : RegIdx) (nn : Byte)
  /-- `move`, 8xy0 (R122). -/
  | move (x y : RegIdx)
  /-- `or`, 8xy1 (R123). -/
  | orReg (x y : RegIdx)
  /-- `and`, 8xy2 (R124). -/
  | andReg (x y : RegIdx)
  /-- `xor`, 8xy3 (R125). -/
  | xorReg (x y : RegIdx)
  /-- `add-reg`, 8xy4 (R126). -/
  | addReg (x y : RegIdx)
  /-- `sub-reg`, 8xy5 (R127). -/
  | subReg (x y : RegIdx)
  /-- `shift-right`, 8xy6 (R128); `y` is a field of the word that the operation ignores (R78). -/
  | shiftRight (x y : RegIdx)
  /-- `sub-reg-rev`, 8xy7 (R129). -/
  | subRegRev (x y : RegIdx)
  /-- `shift-left`, 8xyE (R130); `y` is a field of the word that the operation ignores (R78). -/
  | shiftLeft (x y : RegIdx)
  /-- `skip-if-ne-reg`, 9xy0 (R113). -/
  | skipIfNeReg (x y : RegIdx)
  /-- `load-index`, Annn (R140). -/
  | loadIndex (nnn : Addr)
  /-- `jump-offset`, Bnnn (R104). -/
  | jumpOffset (nnn : Addr)
  /-- `random-and`, Cxnn (R131). -/
  | randomAnd (x : RegIdx) (nn : Byte)
  /-- `draw-sprite`, Dxyn (R151). -/
  | drawSprite (x y : RegIdx) (n : Nibble)
  /-- `skip-if-key-down`, Ex9E (R114). -/
  | skipIfKeyDown (x : RegIdx)
  /-- `skip-if-key-up`, ExA1 (R115). -/
  | skipIfKeyUp (x : RegIdx)
  /-- `get-delay`, Fx07 (R160). -/
  | getDelay (x : RegIdx)
  /-- `wait-key`, Fx0A (R161). -/
  | waitKey (x : RegIdx)
  /-- `set-delay`, Fx15 (R162). -/
  | setDelay (x : RegIdx)
  /-- `set-sound`, Fx18 (R163). -/
  | setSound (x : RegIdx)
  /-- `add-index`, Fx1E (R141). -/
  | addIndex (x : RegIdx)
  /-- `font-address`, Fx29 (R142). -/
  | fontAddress (x : RegIdx)
  /-- `store-bcd`, Fx33 (R143). -/
  | storeBcd (x : RegIdx)
  /-- `store-regs`, Fx55 (R144); `x` is the last register of the range. -/
  | storeRegs (x : RegIdx)
  /-- `load-regs`, Fx65 (R145); `x` is the last register of the range. -/
  | loadRegs (x : RegIdx)
  deriving DecidableEq, Repr

end Sys2Proof
end

