-- ==== Sys2Proof/Decode.lean ====
section
/-! DEFINITION. Decoding and encoding (30_encoding.md R70 to R82, R88): the fields of a word, the decoder as R75
describes it, the encoder, the same on bytes, and the opcode map of R76 as rows of mask and match. -/

namespace Sys2Proof

/-! ### Fields of a word (R72) -/

/-- `op = w[15:12]`. -/
def opOf (w : Word) : Nibble := w.extractLsb' 12 4

/-- `x = w[11:8]`. -/
def xOf (w : Word) : RegIdx := (w.extractLsb' 8 4).toFin

/-- `y = w[7:4]`. -/
def yOf (w : Word) : RegIdx := (w.extractLsb' 4 4).toFin

/-- `n = w[3:0]`. -/
def nOf (w : Word) : Nibble := w.extractLsb' 0 4

/-- `nn = w[7:0]`. -/
def nnOf (w : Word) : Byte := w.extractLsb' 0 8

/-- `nnn = w[11:0]`. -/
def nnnOf (w : Word) : Addr := w.extractLsb' 0 12

/-! ### The decoder -/

/-- Why bytes are not an instruction. -/
inductive DecodeReject where
  /-- fewer bytes than the two of an instruction (R70); the fetch never presents so few -/
  | truncated
  /-- a word that matches no row of the opcode map (R75, R82); the step reports it and goes on (R83) -/
  | unrecognized (w : Word)
  deriving DecidableEq, Repr

/-- Class 0: two whole words (R77). -/
def decodeClass0 (w : Word) : Except DecodeReject Instr :=
  if w = 0x00E0#16 then .ok .clearScreen
  else if w = 0x00EE#16 then .ok .returnSub
  else .error (.unrecognized w)

/-- Class 8: the sub-operation is `n` (R78). -/
def decodeClass8 (w : Word) : Except DecodeReject Instr :=
  match (nOf w).toNat with
  | 0x0 => .ok (.move (xOf w) (yOf w))
  | 0x1 => .ok (.orReg (xOf w) (yOf w))
  | 0x2 => .ok (.andReg (xOf w) (yOf w))
  | 0x3 => .ok (.xorReg (xOf w) (yOf w))
  | 0x4 => .ok (.addReg (xOf w) (yOf w))
  | 0x5 => .ok (.subReg (xOf w) (yOf w))
  | 0x6 => .ok (.shiftRight (xOf w) (yOf w))
  | 0x7 => .ok (.subRegRev (xOf w) (yOf w))
  | 0xE => .ok (.shiftLeft (xOf w) (yOf w))
  | _ => .error (.unrecognized w)

/-- Class E: the sub-operation is `nn` (R79). -/
def decodeClassE (w : Word) : Except DecodeReject Instr :=
  if nnOf w = 0x9E#8 then .ok (.skipIfKeyDown (xOf w))
  else if nnOf w = 0xA1#8 then .ok (.skipIfKeyUp (xOf w))
  else .error (.unrecognized w)

/-- Class F: the sub-operation is `nn` (R80). -/
def decodeClassF (w : Word) : Except DecodeReject Instr :=
  if nnOf w = 0x07#8 then .ok (.getDelay (xOf w))
  else if nnOf w = 0x0A#8 then .ok (.waitKey (xOf w))
  else if nnOf w = 0x15#8 then .ok (.setDelay (xOf w))
  else if nnOf w = 0x18#8 then .ok (.setSound (xOf w))
  else if nnOf w = 0x1E#8 then .ok (.addIndex (xOf w))
  else if nnOf w = 0x29#8 then .ok (.fontAddress (xOf w))
  else if nnOf w = 0x33#8 then .ok (.storeBcd (xOf w))
  else if nnOf w = 0x55#8 then .ok (.storeRegs (xOf w))
  else if nnOf w = 0x65#8 then .ok (.loadRegs (xOf w))
  else .error (.unrecognized w)

/-- A two-register form whose `n` must be 0: classes 5 and 9 (R81). -/
def decodeXY0 (w : Word) (i : RegIdx → RegIdx → Instr) : Except DecodeReject Instr :=
  if nOf w = 0#4 then .ok (i (xOf w) (yOf w)) else .error (.unrecognized w)

/-- The decode procedure of R75: select on `op`, then on the class's own sub-field. Total: every word is one
instruction or unrecognized. -/
def decode (w : Word) : Except DecodeReject Instr :=
  match (opOf w).toNat with
  | 0x0 => decodeClass0 w
  | 0x1 => .ok (.jump (nnnOf w))
  | 0x2 => .ok (.call (nnnOf w))
  | 0x3 => .ok (.skipIfEqImm (xOf w) (nnOf w))
  | 0x4 => .ok (.skipIfNeImm (xOf w) (nnOf w))
  | 0x5 => decodeXY0 w .skipIfEqReg
  | 0x6 => .ok (.loadImm (xOf w) (nnOf w))
  | 0x7 => .ok (.addImm (xOf w) (nnOf w))
  | 0x8 => decodeClass8 w
  | 0x9 => decodeXY0 w .skipIfNeReg
  | 0xA => .ok (.loadIndex (nnnOf w))
  | 0xB => .ok (.jumpOffset (nnnOf w))
  | 0xC => .ok (.randomAnd (xOf w) (nnOf w))
  | 0xD => .ok (.drawSprite (xOf w) (yOf w) (nOf w))
  | 0xE => decodeClassE w
  | 0xF => decodeClassF w
  | _ => .error (.unrecognized w)

/-- The word of the two bytes of a fetch, the byte at the lower address more significant (R71, 20_memory.md R54). -/
def wordOfBytes (hi lo : Byte) : Word := hi ++ lo

/-- Decoding of a byte stream: the instruction of the first two bytes and the bytes after it. -/
def decodeBytes : List Byte → Except DecodeReject (Instr × List Byte)
  | hi :: lo :: rest =>
    match decode (wordOfBytes hi lo) with
    | .ok i => .ok (i, rest)
    | .error e => .error e
  | _ => .error .truncated

/-! ### The encoder (R88, formats of R73) -/

/-- A register number as its 4-bit field. -/
def regBits (x : RegIdx) : Nibble := BitVec.ofFin x

/-- Format `NNN`. -/
def encNNN (op : Nibble) (nnn : Addr) : Word := op ++ nnn

/-- Format `XNN`; also `XSS`, whose `nn` is the fixed sub-operation. -/
def encXNN (op : Nibble) (x : RegIdx) (nn : Byte) : Word := (op ++ regBits x) ++ nn

/-- Format `XYN`; also `XYS`, whose `n` is the fixed sub-operation. -/
def encXYN (op : Nibble) (x y : RegIdx) (n : Nibble) : Word := (op ++ regBits x) ++ (regBits y ++ n)

/-- The word of an instruction. -/
def encode : Instr → Word
  | .clearScreen => 0x00E0#16
  | .returnSub => 0x00EE#16
  | .jump nnn => encNNN 0x1#4 nnn
  | .call nnn => encNNN 0x2#4 nnn
  | .skipIfEqImm x nn => encXNN 0x3#4 x nn
  | .skipIfNeImm x nn => encXNN 0x4#4 x nn
  | .skipIfEqReg x y => encXYN 0x5#4 x y 0x0#4
  | .loadImm x nn => encXNN 0x6#4 x nn
  | .addImm x nn => encXNN 0x7#4 x nn
  | .move x y => encXYN 0x8#4 x y 0x0#4
  | .orReg x y => encXYN 0x8#4 x y 0x1#4
  | .andReg x y => encXYN 0x8#4 x y 0x2#4
  | .xorReg x y => encXYN 0x8#4 x y 0x3#4
  | .addReg x y => encXYN 0x8#4 x y 0x4#4
  | .subReg x y => encXYN 0x8#4 x y 0x5#4
  | .shiftRight x y => encXYN 0x8#4 x y 0x6#4
  | .subRegRev x y => encXYN 0x8#4 x y 0x7#4
  | .shiftLeft x y => encXYN 0x8#4 x y 0xE#4
  | .skipIfNeReg x y => encXYN 0x9#4 x y 0x0#4
  | .loadIndex nnn => encNNN 0xA#4 nnn
  | .jumpOffset nnn => encNNN 0xB#4 nnn
  | .randomAnd x nn => encXNN 0xC#4 x nn
  | .drawSprite x y n => encXYN 0xD#4 x y n
  | .skipIfKeyDown x => encXNN 0xE#4 x 0x9E#8
  | .skipIfKeyUp x => encXNN 0xE#4 x 0xA1#8
  | .getDelay x => encXNN 0xF#4 x 0x07#8
  | .waitKey x => encXNN 0xF#4 x 0x0A#8
  | .setDelay x => encXNN 0xF#4 x 0x15#8
  | .setSound x => encXNN 0xF#4 x 0x18#8
  | .addIndex x => encXNN 0xF#4 x 0x1E#8
  | .fontAddress x => encXNN 0xF#4 x 0x29#8
  | .storeBcd x => encXNN 0xF#4 x 0x33#8
  | .storeRegs x => encXNN 0xF#4 x 0x55#8
  | .loadRegs x => encXNN 0xF#4 x 0x65#8

/-- The two bytes of a word as memory holds them: `w[15:8]`, then `w[7:0]` (R71, R88). -/
def bytesOfWord (w : Word) : List Byte := [w.extractLsb' 8 8, w.extractLsb' 0 8]

/-- The bytes of an instruction. -/
def encodeBytes (i : Instr) : List Byte := bytesOfWord (encode i)

/-! ### The opcode map (R76): a word is the row's instruction iff `w AND mask = match` -/

/-- One row of the opcode map. -/
structure OpRow where
  mnemonic : String
  mask : Word
  pattern : Word
  deriving DecidableEq, Repr

/-- Whether a word matches a row. -/
def OpRow.accepts (r : OpRow) (w : Word) : Bool := w &&& r.mask == r.pattern

/-- The opcode map, classes 0 to 7. -/
def opcodeMapLow : List OpRow :=
  [⟨"clear-screen", 0xFFFF, 0x00E0⟩, ⟨"return", 0xFFFF, 0x00EE⟩, ⟨"jump", 0xF000, 0x1000⟩, ⟨"call", 0xF000, 0x2000⟩,
   ⟨"skip-if-eq-imm", 0xF000, 0x3000⟩, ⟨"skip-if-ne-imm", 0xF000, 0x4000⟩, ⟨"skip-if-eq-reg", 0xF00F, 0x5000⟩,
   ⟨"load-imm", 0xF000, 0x6000⟩, ⟨"add-imm", 0xF000, 0x7000⟩]

/-- The opcode map, class 8. -/
def opcodeMapAlu : List OpRow :=
  [⟨"move", 0xF00F, 0x8000⟩, ⟨"or", 0xF00F, 0x8001⟩, ⟨"and", 0xF00F, 0x8002⟩, ⟨"xor", 0xF00F, 0x8003⟩,
   ⟨"add-reg", 0xF00F, 0x8004⟩, ⟨"sub-reg", 0xF00F, 0x8005⟩, ⟨"shift-right", 0xF00F, 0x8006⟩,
   ⟨"sub-reg-rev", 0xF00F, 0x8007⟩, ⟨"shift-left", 0xF00F, 0x800E⟩]

/-- The opcode map, classes 9 to F. -/
def opcodeMapHigh : List OpRow :=
  [⟨"skip-if-ne-reg", 0xF00F, 0x9000⟩, ⟨"load-index", 0xF000, 0xA000⟩, ⟨"jump-offset", 0xF000, 0xB000⟩,
   ⟨"random-and", 0xF000, 0xC000⟩, ⟨"draw-sprite", 0xF000, 0xD000⟩, ⟨"skip-if-key-down", 0xF0FF, 0xE09E⟩,
   ⟨"skip-if-key-up", 0xF0FF, 0xE0A1⟩, ⟨"get-delay", 0xF0FF, 0xF007⟩, ⟨"wait-key", 0xF0FF, 0xF00A⟩,
   ⟨"set-delay", 0xF0FF, 0xF015⟩, ⟨"set-sound", 0xF0FF, 0xF018⟩, ⟨"add-index", 0xF0FF, 0xF01E⟩,
   ⟨"font-address", 0xF0FF, 0xF029⟩, ⟨"store-bcd", 0xF0FF, 0xF033⟩, ⟨"store-regs", 0xF0FF, 0xF055⟩,
   ⟨"load-regs", 0xF0FF, 0xF065⟩]

/-- The opcode map, 34 rows in the order of R76. -/
def opcodeMap : List OpRow := opcodeMapLow ++ opcodeMapAlu ++ opcodeMapHigh

/-- The rows a word matches. -/
def rowsOf (w : Word) : List OpRow := opcodeMap.filter (·.accepts w)

/-- The table's mnemonic of an instruction. -/
def mnemonicOf : Instr → String
  | .clearScreen => "clear-screen"
  | .returnSub => "return"
  | .jump _ => "jump"
  | .call _ => "call"
  | .skipIfEqImm _ _ => "skip-if-eq-imm"
  | .skipIfNeImm _ _ => "skip-if-ne-imm"
  | .skipIfEqReg _ _ => "skip-if-eq-reg"
  | .loadImm _ _ => "load-imm"
  | .addImm _ _ => "add-imm"
  | .move _ _ => "move"
  | .orReg _ _ => "or"
  | .andReg _ _ => "and"
  | .xorReg _ _ => "xor"
  | .addReg _ _ => "add-reg"
  | .subReg _ _ => "sub-reg"
  | .shiftRight _ _ => "shift-right"
  | .subRegRev _ _ => "sub-reg-rev"
  | .shiftLeft _ _ => "shift-left"
  | .skipIfNeReg _ _ => "skip-if-ne-reg"
  | .loadIndex _ => "load-index"
  | .jumpOffset _ => "jump-offset"
  | .randomAnd _ _ => "random-and"
  | .drawSprite _ _ _ => "draw-sprite"
  | .skipIfKeyDown _ => "skip-if-key-down"
  | .skipIfKeyUp _ => "skip-if-key-up"
  | .getDelay _ => "get-delay"
  | .waitKey _ => "wait-key"
  | .setDelay _ => "set-delay"
  | .setSound _ => "set-sound"
  | .addIndex _ => "add-index"
  | .fontAddress _ => "font-address"
  | .storeBcd _ => "store-bcd"
  | .storeRegs _ => "store-regs"
  | .loadRegs _ => "load-regs"

/-! ### The table's numbering of bits -/

/-- The bytes, as memory holds them, of an instruction whose table bits are `w`: one big-endian 16-bit word, bit 0 its
least significant bit, every bit from `nbits` up 0. -/
def tableBytes (nbits w : Nat) : List Byte := bytesOfWord (BitVec.ofNat 16 (w % 2 ^ nbits))

/-- The instruction the decoder reads from the table bits `w`. -/
def decodeTableWord (nbits w : Nat) : Option Instr :=
  match decodeBytes (tableBytes nbits w) with
  | .ok (i, _) => some i
  | .error _ => none

end Sys2Proof
end

