-- ==== Sys2Proof/Config.lean ====
section
/-! DEFINITION. The parameters of the machine, each with the value 00_scope.md R5 gives it, and the one free value
of the specification, the random port. -/

namespace Sys2Proof

/-- `MEM_SIZE` (R5, R51). -/
abbrev Config.memSize : Nat := 4096

/-- The highest address a data access may use (R51, R59). -/
abbrev Config.maxAddr : Nat := 4095

/-- The highest `PC` an instruction may be fetched from (R60). -/
abbrev Config.maxFetch : Nat := 4094

/-- `GLYPH_BASE` (R5). -/
abbrev Config.glyphBase : Nat := 0

/-- `GLYPH_STRIDE` (R5, R142). -/
abbrev Config.glyphStride : Nat := 5

/-- `LOAD_ADDR`: where `load` places a program and where `PC` starts (R5, R24). -/
abbrev Config.loadAddr : Nat := 512

/-- `MAX_PROG` = `MEM_SIZE` - `LOAD_ADDR` (R5, R202). -/
abbrev Config.maxProg : Nat := 3584

/-- `STACK_DEPTH` (R5, R26). -/
abbrev Config.stackDepth : Nat := 16

/-- `FB_WIDTH` (R5, R30). -/
abbrev Config.fbWidth : Nat := 64

/-- `FB_HEIGHT` (R5, R30). -/
abbrev Config.fbHeight : Nat := 32

/-- `GLYPHS`: the 80 bytes of the glyph table, one line per digit (20_memory.md R52). -/
def Config.glyphs : List Byte :=
  [[0xF0, 0x90, 0x90, 0x90, 0xF0],
   [0x20, 0x60, 0x20, 0x20, 0x70],
   [0xF0, 0x10, 0xF0, 0x80, 0xF0],
   [0xF0, 0x10, 0xF0, 0x10, 0xF0],
   [0x90, 0x90, 0xF0, 0x10, 0x10],
   [0xF0, 0x80, 0xF0, 0x10, 0xF0],
   [0xF0, 0x80, 0xF0, 0x90, 0xF0],
   [0xF0, 0x10, 0x20, 0x40, 0x40],
   [0xF0, 0x90, 0xF0, 0x90, 0xF0],
   [0xF0, 0x90, 0xF0, 0x10, 0xF0],
   [0xF0, 0x90, 0xF0, 0x90, 0x90],
   [0xE0, 0x90, 0xE0, 0x90, 0xE0],
   [0xF0, 0x80, 0x80, 0x80, 0xF0],
   [0xE0, 0x90, 0x90, 0x90, 0xE0],
   [0xF0, 0x80, 0xF0, 0x80, 0xF0],
   [0xF0, 0x80, 0xF0, 0x80, 0x80]].flatten

/-- The byte the random port supplies at the `k`-th draw (60_exceptions.md R184). A FREE VALUE: no body, under no
law, so that a statement holds for every supply of bytes (log entry 3). -/
opaque Config.randomByte : Nat → Byte

end Sys2Proof
end

