-- ==== Sys2Proof/Machine/State.lean ====
section
/-! DEFINITION. The state of the machine (10_state.md R20 to R37), the reasons a step can stop, and the state after
reset (R36). -/

namespace Sys2Proof.Machine

/-- The memory: the cells that differ from the reset content, addresses strictly rising (R31; `Memory.wf` in Ops.lean
says the form; log entry 9). -/
abbrev Memory := List Host.Cell

/-- The framebuffer as its grid: row `py`, then column `px` (R30; log entry 10). -/
abbrev Framebuffer := Vector (Vector Bool Config.fbWidth) Config.fbHeight

/-- The five synchronous faults (60_exceptions.md R170). -/
inductive FaultCode where
  /-- raised by `call` when `SP` = 16 -/
  | stackOverflow
  /-- raised by `return` when `SP` = 0 -/
  | stackUnderflow
  /-- raised by the fetch when `PC` > 4094 -/
  | fetchOutOfRange
  /-- raised by the four memory instructions when the highest address is above 4095 -/
  | memOutOfRange
  /-- raised by the key skips when `V[x]` > 15 -/
  | keyIndexOutOfRange
  deriving DecidableEq, Repr

/-- What a fault records (60_exceptions.md R172). -/
structure FaultRecord where
  code : FaultCode
  /-- `a`: the address of the faulting instruction, or the `PC` that could not be fetched -/
  addr : Word
  /-- `w`: the instruction word, absent for `FetchOutOfRange` -/
  word : Option Word
  /-- `SP`, the offending `PC`, the highest address, or the key index; an address here can exceed 16 bits (log
  entry 15) -/
  info : Nat
  deriving DecidableEq, Repr

/-- The event `InvalidOpcode(a, w)` of an unrecognized word (30_encoding.md R83, 60_exceptions.md R178). -/
structure Diagnostic where
  addr : Word
  word : Word
  deriving DecidableEq, Repr

structure State where
  /-- `V[0..15]` (R20); `V[15]` is `VF`, the flag (R21) -/
  v : Vector Byte 16
  /-- `I` (R23) -/
  index : Word
  /-- `PC` (R24) -/
  pc : Word
  /-- `SP`, 0..16 (R26) -/
  sp : Fin (Config.stackDepth + 1)
  /-- `STACK[0..15]` (R26) -/
  stack : Vector Word Config.stackDepth
  /-- `DT` (R28) -/
  delay : Byte
  /-- `ST` (R28) -/
  sound : Byte
  /-- `KEY[0..15]`, true = pressed (R29) -/
  keys : Vector Bool 16
  /-- `FB`, true = set (R30) -/
  fb : Framebuffer
  /-- `MEM[0..4095]` (R31) -/
  mem : Memory
  /-- `FAULT` (R32) -/
  fault : Option FaultRecord
  /-- the model's own: the diagnostics so far, newest first (R83; log entry 5) -/
  diagnostics : List Diagnostic
  /-- the model's own: how many random bytes have been taken (60_exceptions.md R184; log entry 4) -/
  draws : Nat
  deriving DecidableEq, Repr

/-- Why the machine stops. The spec's own faults are not here: they are latched in `FAULT` by a next state (R174). -/
inductive Fault where
  /-- Raised by `memRead` and `memWrite` (20_memory.md R61) on an address above 4095, which does not exist. No
  instruction and no step reaches it, since the whole range is checked first (R59, R60). Safe. -/
  | noSuchAddress (addr : Nat)
  deriving DecidableEq, Repr

/-- Why an instruction has no meaning. -/
inductive Refusal where
  /-- An instruction of the table without a meaning yet, raised by `exec`'s arm for it. Safe. No arm is so. -/
  | notModelled (mnemonic : String)
  deriving DecidableEq, Repr

/-- The state after reset (R36): `PC` at 512, the glyph table and zeros in memory (so no cell differs from the reset
content), everything else 0, unset, not pressed, `FAULT` = `None`. -/
def State.reset : State where
  v := Vector.replicate 16 0
  index := 0
  pc := BitVec.ofNat 16 Config.loadAddr
  sp := 0
  stack := Vector.replicate Config.stackDepth 0
  delay := 0
  sound := 0
  keys := Vector.replicate 16 false
  fb := Vector.replicate Config.fbHeight (Vector.replicate Config.fbWidth false)
  mem := []
  fault := none
  diagnostics := []
  draws := 0

end Sys2Proof.Machine
end

