-- ==== Sys2Proof/Machine/Ops.lean ====
section
/-! DEFINITION. The named operations over registers, memory, stack, framebuffer and keypad, and taking a fault. -/

namespace Sys2Proof.Machine

/-- What a step or a meaning answers. -/
abbrev Result := Host.Outcome State Fault Refusal

/-! ### Registers (10_state.md R20 to R24, R28) -/

/-- `V[x]`. -/
def State.reg (s : State) (x : RegIdx) : Byte := s.v[x]

/-- `V[x] <- b`. -/
def State.setReg (s : State) (x : RegIdx) (b : Byte) : State := { s with v := s.v.set x b }

/-- `V[k], V[k+1], ... <- bs` in ascending order (43_index_memory.md R145). -/
def State.setRegsFrom (s : State) (k : Nat) : List Byte → State
  | [] => s
  | b :: bs => (s.setReg (Fin.ofNat 16 k) b).setRegsFrom (k + 1) bs

/-- `I <- w`. -/
def State.setIndex (s : State) (w : Word) : State := { s with index := w }

/-- `pc <- w`. -/
def State.setPc (s : State) (w : Word) : State := { s with pc := w }

/-- `pc <- pc + 2` when the condition holds (41_skips.md R116). -/
def State.skipIf (s : State) (c : Bool) : State := if c then s.setPc (s.pc + 2) else s

/-- `DT <- b`. -/
def State.setDelay (s : State) (b : Byte) : State := { s with delay := b }

/-- `ST <- b`. -/
def State.setSound (s : State) (b : Byte) : State := { s with sound := b }

/-! ### Faults: latch and halt (60_exceptions.md R172 to R174)

There is no return: no instruction clears `FAULT` (R175); the `reset` command does (Commands.lean). -/

/-- `raise Fault`: `FAULT <- (code, a, w, info)`, only if `FAULT` = `None`; nothing else changes. -/
def raise (code : FaultCode) (a : Word) (w : Option Word) (info : Nat) (s : State) : State :=
  match s.fault with
  | none => { s with fault := some ⟨code, a, w, info⟩ }
  | some _ => s

/-- A fault raised in the execute stage of `i`: `pc` already holds `a + 2` (R173), and `w` is the word of `i` (log
entries 11, 12). -/
def raiseIn (i : Instr) (code : FaultCode) (info : Nat) (s : State) : Result :=
  .next (raise code (s.pc - 2) (some (encode i)) info s)

/-! ### Memory (20_memory.md R51, R52, R58, R61) -/

/-- The reset content of an address, which an address that is not listed reads as: the glyph table, then 0 (10_state.md
R36, R52). -/
def Memory.unlisted (a : Nat) : Byte :=
  if a < Config.glyphBase then 0 else Config.glyphs.getD (a - Config.glyphBase) 0

/-- `MEM[a]`. -/
def Memory.read : Memory → Nat → Byte
  | [], a => Memory.unlisted a
  | (k, b) :: m, a => if a = k then b else Memory.read m a

/-- `MEM[a] <- b`, keeping the canonical form. -/
def Memory.write : Memory → Nat → Byte → Memory
  | [], a, b => if b = Memory.unlisted a then [] else [(a, b)]
  | (k, c) :: m, a, b =>
    if a < k then
      if b = Memory.unlisted a then (k, c) :: m else (a, b) :: (k, c) :: m
    else if a = k then
      if b = Memory.unlisted a then m else (a, b) :: m
    else (k, c) :: Memory.write m a b

/-- Bytes copied into memory from `a` upward, in ascending order. -/
def Memory.copy : Memory → Nat → List Byte → Memory
  | m, _, [] => m
  | m, a, b :: bs => Memory.copy (Memory.write m a b) (a + 1) bs

/-- The canonical form: addresses below `MEM_SIZE` and strictly rising, no entry equal to the reset content. -/
def Memory.wf : Memory → Bool
  | [] => true
  | (a, b) :: m =>
    decide (a < Config.memSize) && decide (b ≠ Memory.unlisted a) && m.all (fun c => decide (a < c.1)) && Memory.wf m

/-- `MemRead(addr, 1)`. -/
def memRead (s : State) (a : Nat) : Except Fault Byte :=
  if a ≤ Config.maxAddr then .ok (Memory.read s.mem a) else .error (.noSuchAddress a)

/-- `MemWrite(addr, 1, v)`. -/
def memWrite (s : State) (a : Nat) (b : Byte) : Except Fault State :=
  if a ≤ Config.maxAddr then .ok { s with mem := Memory.write s.mem a b } else .error (.noSuchAddress a)

/-- `n` bytes from `a` upward, read in ascending order (R62 (b)). -/
def readBytes (s : State) (a : Nat) : Nat → Except Fault (List Byte)
  | 0 => .ok []
  | n + 1 =>
    match memRead s a with
    | .error f => .error f
    | .ok b =>
      match readBytes s (a + 1) n with
      | .error f => .error f
      | .ok bs => .ok (b :: bs)

/-- The bytes written from `a` upward, in ascending order (R62 (b)). -/
def writeBytes (s : State) (a : Nat) : List Byte → Except Fault State
  | [] => .ok s
  | b :: bs =>
    match memWrite s a b with
    | .error f => .error f
    | .ok s' => writeBytes s' (a + 1) bs

/-- The next state of a computation over memory, or its fault. -/
def ofExcept : Except Fault State → Result
  | .ok s => .next s
  | .error f => .fault f

/-! ### The return stack (10_state.md R26, R27) -/

/-- `Push(w)`; `none` when `SP` = 16. -/
def pushAddr (w : Word) (s : State) : Option State :=
  if h : s.sp.val < Config.stackDepth then
    some { s with stack := s.stack.set s.sp.val w, sp := ⟨s.sp.val + 1, Nat.succ_lt_succ h⟩ }
  else none

/-- `Pop()`: the entry and the state after; `none` when `SP` = 0. The slot keeps its value. -/
def popAddr (s : State) : Option (Word × State) :=
  if h : 0 < s.sp.val then
    have hk : s.sp.val - 1 < Config.stackDepth := by have := s.sp.isLt; omega
    some (s.stack[s.sp.val - 1], { s with sp := ⟨s.sp.val - 1, Nat.lt_succ_of_lt hk⟩ })
  else none

/-! ### The framebuffer (10_state.md R30, 20_memory.md R67) -/

/-- A cell's place: column `px`, row `py`. -/
abbrev Pixel := Fin Config.fbWidth × Fin Config.fbHeight

/-- Whether the cell at a place is set. -/
def Framebuffer.cell (fb : Framebuffer) (p : Pixel) : Bool := fb[p.2][p.1]

/-- `FB[j] <- not FB[j]`, the XOR of a set sprite bit. -/
def Framebuffer.flip (fb : Framebuffer) (p : Pixel) : Framebuffer :=
  fb.set p.2 (fb[p.2].set p.1 (!fb[p.2][p.1]))

/-- All cells unset. -/
def Framebuffer.clear : Framebuffer :=
  Vector.replicate Config.fbHeight (Vector.replicate Config.fbWidth false)

/-- The index `j = py * FB_WIDTH + px` of a cell. -/
def Pixel.toIndex (p : Pixel) : Nat := p.2.val * Config.fbWidth + p.1.val

/-! ### The keypad (10_state.md R29) -/

/-- `KEY[k]`. -/
def State.key (s : State) (k : KeyIdx) : Bool := s.keys[k]

/-- The least pressed key, if one is pressed (45_timer_key.md R161). -/
def State.leastKey (s : State) : Option Nat := s.keys.toList.findIdx? id

/-! ### The random port (60_exceptions.md R184) -/

/-- `RandomByte()`: one byte, and the port moved on. -/
def State.takeRandom (s : State) : Byte × State :=
  (Config.randomByte s.draws, { s with draws := s.draws + 1 })

/-! ### The diagnostics port (30_encoding.md R83) -/

/-- `diag InvalidOpcode(a, w)`. -/
def State.diag (s : State) (a w : Word) : State := { s with diagnostics := ⟨a, w⟩ :: s.diagnostics }

/-- The numeric code of a fault (60_exceptions.md R170). -/
def FaultCode.number : FaultCode → Nat
  | .stackOverflow => 1
  | .stackUnderflow => 2
  | .fetchOutOfRange => 3
  | .memOutOfRange => 4
  | .keyIndexOutOfRange => 5

end Sys2Proof.Machine
end

