-- ==== Sys2Proof/Machine/Flags.lean ====
section
/-! DEFINITION. Results and flags of the arithmetic and shift instructions (42_alu.md R126 to R133): computed on
integers and narrowed at the end. -/

namespace Sys2Proof.Machine

/-- The byte of a flag: 0x00 or 0x01 (10_state.md R21). -/
def flagByte (c : Bool) : Byte := if c then 1 else 0

/-- `(p + q) mod 256` (R132 (b)). -/
def addBytes (p q : Byte) : Byte := BitVec.ofNat 8 (p.toNat + q.toNat)

/-- The carry out: `p + q > 255` (R126). -/
def carryOut (p q : Byte) : Bool := decide (p.toNat + q.toNat > 255)

/-- `(p - q) mod 256` (R132 (c)). -/
def subBytes (p q : Byte) : Byte := BitVec.ofInt 8 ((p.toNat : Int) - (q.toNat : Int))

/-- No borrow of `p - q`: `p >= q` (R127, R129). -/
def noBorrow (p q : Byte) : Bool := decide (q.toNat ≤ p.toNat)

/-- `p div 2` (R128). -/
def shiftRightOne (p : Byte) : Byte := BitVec.ofNat 8 (p.toNat / 2)

/-- The bit a right shift drops, `p[0]` (R128). -/
def droppedRight (p : Byte) : Bool := p.getLsbD 0

/-- `(2 * p) mod 256` (R130). -/
def shiftLeftOne (p : Byte) : Byte := BitVec.ofNat 8 (2 * p.toNat)

/-- The bit a left shift drops, `p[7]` (R130). -/
def droppedLeft (p : Byte) : Bool := p.getLsbD 7

/-- `VF`'s number. -/
def flagReg : RegIdx := 15

/-- The flag write: `V[15] <- c`. -/
def State.setFlag (s : State) (c : Bool) : State := s.setReg flagReg (flagByte c)

/-- A flag-writing instruction's writes: the result to `V[x]`, then the flag to `V[15]` (10_state.md R22). -/
def State.setResultThenFlag (s : State) (x : RegIdx) (r : Byte) (c : Bool) : State :=
  (s.setReg x r).setFlag c

end Sys2Proof.Machine
end

