-- ==== Sys2Proof/Machine/Operands.lean ====
section
/-! DEFINITION. The operand forms (30_encoding.md R74, 43_index_memory.md R146): immediates and their extension,
`I` plus offset with the range check of the whole access (20_memory.md R59), key indices, register ranges, decimal
digits. -/

namespace Sys2Proof.Machine

/-- `zext_16` of an address immediate. -/
def extAddr (nnn : Addr) : Word := nnn.setWidth 16

/-- `zext_16` of a register value. -/
def extByte (b : Byte) : Word := b.setWidth 16

/-- The base of a data access, `I` as an unbounded integer (R59, R146). -/
def State.base (s : State) : Nat := s.index.toNat

/-- The data range check of R59 for `n` bytes from `I`: past the end, `Fault(MemOutOfRange)` with the highest address
and no part of the effect; otherwise the effect. -/
def withRange (i : Instr) (n : Nat) (s : State) (effect : Result) : Result :=
  if 1 ≤ n ∧ s.base + n - 1 > Config.maxAddr then raiseIn i .memOutOfRange (s.base + n - 1) s else effect

/-- The key whose index a register holds (41_skips.md R114): above 15, `Fault(KeyIndexOutOfRange)`; otherwise the
effect on that key's state. -/
def withKey (i : Instr) (k : Byte) (s : State) (effect : Bool → Result) : Result :=
  if h : k.toNat < 16 then effect (s.key ⟨k.toNat, h⟩) else raiseIn i .keyIndexOutOfRange k.toNat s

/-- The values of `V0..Vx` (43_index_memory.md R144). -/
def State.regsUpTo (s : State) (x : RegIdx) : List Byte := s.v.toList.take (x.val + 1)

/-- The three decimal digits of a byte, hundreds first (43_index_memory.md R143). -/
def bcdDigits (b : Byte) : List Byte :=
  [BitVec.ofNat 8 (b.toNat / 100), BitVec.ofNat 8 (b.toNat / 10 % 10), BitVec.ofNat 8 (b.toNat % 10)]

end Sys2Proof.Machine
end

