-- ==== Sys2Proof/Machine/Alu.lean ====
section
/-! DEFINITION. Register load, arithmetic, logic, shift, random (42_alu.md R120 to R131). -/

namespace Sys2Proof.Machine

/-- `load-imm` (R120). -/
def execLoadImm (x : RegIdx) (nn : Byte) (s : State) : Result := .next (s.setReg x nn)

/-- `add-imm` (R121): no flag. -/
def execAddImm (x : RegIdx) (nn : Byte) (s : State) : Result := .next (s.setReg x (addBytes (s.reg x) nn))

/-- `move` (R122). -/
def execMove (x y : RegIdx) (s : State) : Result := .next (s.setReg x (s.reg y))

/-- `or` (R123): no flag. -/
def execOr (x y : RegIdx) (s : State) : Result := .next (s.setReg x (s.reg x ||| s.reg y))

/-- `and` (R124): no flag. -/
def execAnd (x y : RegIdx) (s : State) : Result := .next (s.setReg x (s.reg x &&& s.reg y))

/-- `xor` (R125): no flag. -/
def execXor (x y : RegIdx) (s : State) : Result := .next (s.setReg x (s.reg x ^^^ s.reg y))

/-- `add-reg` (R126). -/
def execAddReg (x y : RegIdx) (s : State) : Result :=
  .next (s.setResultThenFlag x (addBytes (s.reg x) (s.reg y)) (carryOut (s.reg x) (s.reg y)))

/-- `sub-reg` (R127). -/
def execSubReg (x y : RegIdx) (s : State) : Result :=
  .next (s.setResultThenFlag x (subBytes (s.reg x) (s.reg y)) (noBorrow (s.reg x) (s.reg y)))

/-- `shift-right` (R128): the operand is `V[x]`; `y` is ignored. -/
def execShiftRight (x _y : RegIdx) (s : State) : Result :=
  .next (s.setResultThenFlag x (shiftRightOne (s.reg x)) (droppedRight (s.reg x)))

/-- `sub-reg-rev` (R129). -/
def execSubRegRev (x y : RegIdx) (s : State) : Result :=
  .next (s.setResultThenFlag x (subBytes (s.reg y) (s.reg x)) (noBorrow (s.reg y) (s.reg x)))

/-- `shift-left` (R130): the operand is `V[x]`; `y` is ignored. -/
def execShiftLeft (x _y : RegIdx) (s : State) : Result :=
  .next (s.setResultThenFlag x (shiftLeftOne (s.reg x)) (droppedLeft (s.reg x)))

/-- `random-and` (R131): one byte is taken whatever `nn` is. -/
def execRandomAnd (x : RegIdx) (nn : Byte) (s : State) : Result :=
  let (r, s') := s.takeRandom
  .next (s'.setReg x (r &&& nn))

end Sys2Proof.Machine
end

