-- ==== Sys2Proof/Machine/Control.lean ====
section
/-! DEFINITION. Control transfer (40_control_flow.md R101 to R104). In every meaning of this and the other files `pc`
already holds `a + 2` (R100). -/

namespace Sys2Proof.Machine

/-- `return` (R101). -/
def execReturn (s : State) : Result :=
  match popAddr s with
  | none => raiseIn .returnSub .stackUnderflow s.sp.val s
  | some (target, s') => .next (s'.setPc target)

/-- `jump` (R102). -/
def execJump (nnn : Addr) (s : State) : Result := .next (s.setPc (extAddr nnn))

/-- `call` (R103). -/
def execCall (nnn : Addr) (s : State) : Result :=
  match pushAddr s.pc s with
  | none => raiseIn (.call nnn) .stackOverflow s.sp.val s
  | some s' => .next (s'.setPc (extAddr nnn))

/-- `jump-offset` (R104). -/
def execJumpOffset (nnn : Addr) (s : State) : Result :=
  .next (s.setPc (extByte (s.reg 0) + extAddr nnn))

end Sys2Proof.Machine
end

