-- ==== Sys2Proof/Machine/Display.lean ====
section
/-! DEFINITION. The display instructions and the collision detector (44_display.md R150 to R153). -/

namespace Sys2Proof.Machine

/-- The place of a sprite's pixel: start plus offset, reduced modulo width and height (R151, 20_memory.md R67). -/
def pixelAt (x0 y0 row col : Nat) : Pixel :=
  (⟨(x0 + col) % Config.fbWidth, Nat.mod_lt _ (by decide)⟩, ⟨(y0 + row) % Config.fbHeight, Nat.mod_lt _ (by decide)⟩)

/-- Column `col` of a sprite row: bit 7 is column 0, the leftmost (R151). -/
def spriteBit (b : Byte) (col : Nat) : Bool := b.getLsbD (7 - col)

/-- The places a sprite row flips, left to right. -/
def rowPixels (x0 y0 row : Nat) (b : Byte) : List Pixel :=
  ((List.range 8).filter (spriteBit b)).map (pixelAt x0 y0 row)

/-- The places the rows from number `row` on flip, top to bottom. -/
def spritePixels (x0 y0 row : Nat) : List Byte → List Pixel
  | [] => []
  | b :: bs => rowPixels x0 y0 row b ++ spritePixels x0 y0 (row + 1) bs

/-- Flip the places one after another; the collision is the OR of "was set before the flip" (R152). -/
def flipPixels : List Pixel → Framebuffer → Bool → Framebuffer × Bool
  | [], fb, c => (fb, c)
  | p :: ps, fb, c => flipPixels ps (fb.flip p) (c || fb.cell p)

/-- The effect of `draw-sprite` once its rows are read: the flips, then `VF` once (R151). -/
def State.drawRows (s : State) (x0 y0 : Nat) (rows : List Byte) : State :=
  let (fb, c) := flipPixels (spritePixels x0 y0 0 rows) s.fb false
  { s with fb := fb }.setFlag c

/-- `clear-screen` (R150): `VF` is not written. -/
def execClearScreen (s : State) : Result := .next { s with fb := Framebuffer.clear }

/-- `draw-sprite` (R151): the coordinates are read before `VF` is written. -/
def execDrawSprite (x y : RegIdx) (n : Nibble) (s : State) : Result :=
  withRange (.drawSprite x y n) n.toNat s
    (match readBytes s s.base n.toNat with
     | .error f => .fault f
     | .ok rows => .next (s.drawRows (s.reg x).toNat (s.reg y).toNat rows))

end Sys2Proof.Machine
end

