-- ==== Sys2Proof/Machine/IndexMem.lean ====
section
/-! DEFINITION. The index register and memory instructions (43_index_memory.md R140 to R146). -/

namespace Sys2Proof.Machine

/-- `load-index` (R140). -/
def execLoadIndex (nnn : Addr) (s : State) : Result := .next (s.setIndex (extAddr nnn))

/-- `add-index` (R141): modulo 65536, no flag. -/
def execAddIndex (x : RegIdx) (s : State) : Result := .next (s.setIndex (s.index + extByte (s.reg x)))

/-- `font-address` (R142): the whole of `V[x]`. -/
def execFontAddress (x : RegIdx) (s : State) : Result :=
  .next (s.setIndex (BitVec.ofNat 16 (Config.glyphBase + Config.glyphStride * (s.reg x).toNat)))

/-- `store-bcd` (R143). -/
def execStoreBcd (x : RegIdx) (s : State) : Result :=
  withRange (.storeBcd x) 3 s (ofExcept (writeBytes s s.base (bcdDigits (s.reg x))))

/-- `store-regs` (R144): `I` is unchanged. -/
def execStoreRegs (x : RegIdx) (s : State) : Result :=
  withRange (.storeRegs x) (x.val + 1) s (ofExcept (writeBytes s s.base (s.regsUpTo x)))

/-- `load-regs` (R145): `I` is unchanged. -/
def execLoadRegs (x : RegIdx) (s : State) : Result :=
  withRange (.loadRegs x) (x.val + 1) s
    (match readBytes s s.base (x.val + 1) with
     | .error f => .fault f
     | .ok bytes => .next (s.setRegsFrom 0 bytes))

end Sys2Proof.Machine
end

