-- ==== Sys2Proof/Machine/Skips.lean ====
section
/-! DEFINITION. The conditional skips (41_skips.md R110 to R116). -/

namespace Sys2Proof.Machine

/-- `skip-if-eq-imm` (R110). -/
def execSkipIfEqImm (x : RegIdx) (nn : Byte) (s : State) : Result := .next (s.skipIf (s.reg x == nn))

/-- `skip-if-ne-imm` (R111). -/
def execSkipIfNeImm (x : RegIdx) (nn : Byte) (s : State) : Result := .next (s.skipIf (s.reg x != nn))

/-- `skip-if-eq-reg` (R112). -/
def execSkipIfEqReg (x y : RegIdx) (s : State) : Result := .next (s.skipIf (s.reg x == s.reg y))

/-- `skip-if-ne-reg` (R113). -/
def execSkipIfNeReg (x y : RegIdx) (s : State) : Result := .next (s.skipIf (s.reg x != s.reg y))

/-- `skip-if-key-down` (R114). -/
def execSkipIfKeyDown (x : RegIdx) (s : State) : Result :=
  withKey (.skipIfKeyDown x) (s.reg x) s fun down => .next (s.skipIf down)

/-- `skip-if-key-up` (R115). -/
def execSkipIfKeyUp (x : RegIdx) (s : State) : Result :=
  withKey (.skipIfKeyUp x) (s.reg x) s fun down => .next (s.skipIf (!down))

end Sys2Proof.Machine
end

