-- ==== Sys2Proof/Machine/TimerKey.lean ====
section
/-! DEFINITION. The timer and key-wait instructions (45_timer_key.md R160 to R163). -/

namespace Sys2Proof.Machine

/-- `get-delay` (R160). -/
def execGetDelay (x : RegIdx) (s : State) : Result := .next (s.setReg x s.delay)

/-- `wait-key` (R161): the least pressed key's index, or back to the same instruction. -/
def execWaitKey (x : RegIdx) (s : State) : Result :=
  match s.leastKey with
  | some k => .next (s.setReg x (BitVec.ofNat 8 k))
  | none => .next (s.setPc (s.pc - 2))

/-- `set-delay` (R162). -/
def execSetDelay (x : RegIdx) (s : State) : Result := .next (s.setDelay (s.reg x))

/-- `set-sound` (R163). -/
def execSetSound (x : RegIdx) (s : State) : Result := .next (s.setSound (s.reg x))

end Sys2Proof.Machine
end

