-- ==== Sys2Proof/Machine/Cycle.lean ====
section
/-! DEFINITION. One fetch-decode-execute (40_control_flow.md R100), in the check order of 60_exceptions.md R176. -/

namespace Sys2Proof.Machine

/-- `FAULT != None`: the core is halted (10_state.md R32). -/
def State.halted (s : State) : Bool := s.fault.isSome

/-- The word at `PC`: `MemRead(a, 1) ++ MemRead(a + 1, 1)` (20_memory.md R54). -/
def fetchWord (s : State) : Except Fault Word :=
  match memRead s s.pc.toNat with
  | .error f => .error f
  | .ok hi =>
    match memRead s (s.pc.toNat + 1) with
    | .error f => .error f
    | .ok lo => .ok (wordOfBytes hi lo)

/-- The fetch advance, before decode (10_state.md R24). -/
def State.advance (s : State) : State := s.setPc (s.pc + 2)

/-- An unrecognized word `w` fetched from `a` = `PC`: advance, and the diagnostic (30_encoding.md R83). -/
def State.unrecognized (s : State) (w : Word) : State := s.advance.diag s.pc w

/-- What the step does with the fetched word. -/
def runWord (s : State) (w : Word) : Result :=
  match decode w with
  | .error _ => .next (s.unrecognized w)
  | .ok i => exec i s.advance

/-- The step: halted, it changes nothing (60_exceptions.md R174); past the end of memory, `FetchOutOfRange` with `PC`
unchanged (R60, R173); otherwise the fetched word is run. -/
def cycle (s : State) : Result :=
  if s.halted then .next s
  else if s.pc.toNat > Config.maxFetch then .next (raise .fetchOutOfRange s.pc none s.pc.toNat s)
  else
    match fetchWord s with
    | .error f => .fault f
    | .ok w => runWord s w

/-- The two bytes of a word stored at `PC`, where the next fetch reads them. -/
def placeBytes (s : State) (bytes : List Byte) : State :=
  match bytes with
  | [hi, lo] => { s with mem := Memory.write (Memory.write s.mem s.pc.toNat hi) (s.pc.toNat + 1) lo }
  | _ => s

end Sys2Proof.Machine
end

