-- ==== Sys2Proof/WellFormed.lean ====
section
/-! DEFINITION. The checks on what is handed to the machine from outside. An instruction needs none: each operand's
type holds exactly the values its field of the word can hold (10_state.md R20 "no bounds failure is possible there by
construction", 30_encoding.md R74), so every term of `Instr` is well-formed and the encoder and decoder statements
carry no premise. The inputs that can be ill-formed are the program image of `load` and the glyph table of the
configuration. -/

namespace Sys2Proof

/-- A program image that `load` accepts: at most `MAX_PROG` bytes (70_reset_and_hazards.md R202). -/
def Program.wf (bytes : List Byte) : Bool :=
  decide (bytes.length ≤ Config.maxProg)

/-- A glyph table of the size the address map gives it: 16 glyphs of `GLYPH_STRIDE` bytes (20_memory.md R52). -/
def Glyphs.wf (table : List Byte) : Bool :=
  decide (table.length = 16 * Config.glyphStride)

end Sys2Proof
end

