-- ==== Sys2Proof/Machine/Commands.lean ====
section
/-! DEFINITION. The host command interface (60_exceptions.md R191): every command as an atomic transaction on the state,
with the status or view it returns. -/

namespace Sys2Proof.Machine

/-- The commands of R191. -/
inductive Command where
  | reset
  | load (bytes : List Byte)
  | step
  | tick
  | setKey (k : KeyIdx) (pressed : Bool)
  | framebuffer
  | soundActive
  deriving DecidableEq, Repr

/-- What a command returns to the host (R191). -/
inductive Response where
  /-- no status: `reset`, `tick`, `set_key` -/
  | none
  /-- `Ok` of `load` and `step` -/
  | ok
  /-- `LoadError` (R179): the image is longer than `MAX_PROG` -/
  | loadError
  /-- `Halted`: a `step` while `FAULT` != `None` (R174) -/
  | halted
  /-- the fault the `step` raised (R174) -/
  | faulted (r : FaultRecord)
  /-- the framebuffer view: the cells by index `py * FB_WIDTH + px` (R185) -/
  | cells (bits : List Bool)
  /-- `sound_active` (R182) -/
  | active (on : Bool)
  deriving DecidableEq, Repr

/-- One timer's countdown, floored at 0 (R181). -/
def countDown (t : Byte) : Byte := if t = 0 then 0 else t - 1

/-- `tick_timers` (R181): halted or not. -/
def State.tick (s : State) : State := { s with delay := countDown s.delay, sound := countDown s.sound }

/-- `n` ticks with nothing between them (70_reset_and_hazards.md R209). -/
def State.ticks : Nat → State → State
  | 0, s => s
  | n + 1, s => State.ticks n s.tick

/-- `set_key` (R183). -/
def State.setKey (s : State) (k : KeyIdx) (pressed : Bool) : State := { s with keys := s.keys.set k pressed }

/-- `load` (70_reset_and_hazards.md R202): an image that is too long is rejected before any byte is written. -/
def State.load (s : State) (bytes : List Byte) : State × Response :=
  if Program.wf bytes then ({ s with mem := Memory.copy s.mem Config.loadAddr bytes }, .ok) else (s, .loadError)

/-- The `reset` command (70_reset_and_hazards.md R200): the whole machine state at its reset value, whatever it was. The
model's own fields, the event history and the count of random bytes taken, are no machine state and go on (log
entry 6). -/
def State.hostReset (s : State) : State :=
  { State.reset with diagnostics := s.diagnostics, draws := s.draws }

/-- `sound_active` (R182). -/
def State.soundActive (s : State) : Bool := s.sound != 0

/-- The `framebuffer` view: rows from the top, each from the left, so that cell (px, py) is at `py * FB_WIDTH + px`
(R185). -/
def State.framebufferView (s : State) : List Bool := s.fb.toList.flatMap (·.toList)

/-- The `FAULT` output (10_state.md R32). -/
def State.faultOutput (s : State) : Option FaultRecord := s.fault

/-- The status a `step` from `s` to `t` returns (R174, 40_control_flow.md R100). -/
def stepStatus (s t : State) : Response :=
  if s.halted then .halted
  else
    match t.fault with
    | some r => .faulted r
    | none => .ok

/-- One command: the state after it and what it returns. -/
def command (c : Command) (s : State) : Host.Outcome (State × Response) Fault Refusal :=
  match c with
  | .reset => .next (s.hostReset, .none)
  | .load bytes => .next (s.load bytes)
  | .step =>
    match step s with
    | .next t => .next (t, stepStatus s t)
    | .fault f => .fault f
    | .refused r => .refused r
  | .tick => .next (s.tick, .none)
  | .setKey k pressed => .next (s.setKey k pressed, .none)
  | .framebuffer => .next (s, .cells s.framebufferView)
  | .soundActive => .next (s, .active s.soundActive)

/-- A run of the whole machine: any commands in any order (R191). -/
def runCommands : List Command → State → Host.Outcome State Fault Refusal
  | [], s => .next s
  | c :: cs, s =>
    match command c s with
    | .next (t, _) => runCommands cs t
    | .fault f => .fault f
    | .refused r => .refused r

end Sys2Proof.Machine
end

