-- ==== Sys2Proof/Safety.lean ====
section
/-! DEFINITION. The terms claims use: the parts of the state and what leaves them unchanged, a running and a finished
machine, and the invariant of the machine. -/

namespace Sys2Proof

open Machine

/-- The parts of the state: each register, stack slot, key, framebuffer cell and byte of memory by itself. -/
inductive Part where
  | reg (k : RegIdx)
  | index
  | pc
  | sp
  | slot (k : Fin Config.stackDepth)
  | delay
  | sound
  | key (k : KeyIdx)
  | cell (p : Pixel)
  | byte (a : Nat)
  | fault
  | diagnostics
  | draws
  deriving DecidableEq, Repr

/-- Two states agree on a part. -/
def Part.agrees (s t : State) : Part → Prop
  | .reg k => t.reg k = s.reg k
  | .index => t.index = s.index
  | .pc => t.pc = s.pc
  | .sp => t.sp = s.sp
  | .slot k => t.stack[k] = s.stack[k]
  | .delay => t.delay = s.delay
  | .sound => t.sound = s.sound
  | .key k => t.key k = s.key k
  | .cell p => t.fb.cell p = s.fb.cell p
  | .byte a => Memory.read t.mem a = Memory.read s.mem a
  | .fault => t.fault = s.fault
  | .diagnostics => t.diagnostics = s.diagnostics
  | .draws => t.draws = s.draws

/-- THE FRAME: from `s` to `t` every part outside `changed` is as it was. -/
def KeepsAllBut (changed : Part → Prop) (s t : State) : Prop :=
  ∀ p, ¬ changed p → p.agrees s t

/-- The core runs: no fault is latched (10_state.md R32). -/
def Running (s : State) : Prop := s.fault = none

/-- No diagnostic has been reported (30_encoding.md R83). -/
def NoDiagnostic (s : State) : Prop := s.diagnostics = []

/-- The bytes at `PC`, as a word. -/
def wordAtPc (s : State) : Word :=
  wordOfBytes (Memory.read s.mem s.pc.toNat) (Memory.read s.mem (s.pc.toNat + 1))

/-- A program has finished: `PC` holds the address of a jump to itself and no fault is latched (70_reset_and_hazards.md
R204). It does not say that the host stops, nor that the timers have. -/
def Finished (s : State) : Prop :=
  Running s ∧ s.pc.toNat ≤ Config.maxFetch ∧ ∃ nnn, decode (wordAtPc s) = .ok (.jump nnn) ∧ extAddr nnn = s.pc

/-- The instructions that can raise a fault in the execute stage (60_exceptions.md R170). -/
def canRaise : FaultCode → Instr → Prop
  | .stackOverflow, i => ∃ nnn, i = .call nnn
  | .stackUnderflow, i => i = .returnSub
  | .fetchOutOfRange, _ => False
  | .memOutOfRange, i => (∃ x y n, i = .drawSprite x y n) ∨ (∃ x, i = .storeBcd x) ∨ (∃ x, i = .storeRegs x) ∨ ∃ x, i = .loadRegs x
  | .keyIndexOutOfRange, i => (∃ x, i = .skipIfKeyDown x) ∨ ∃ x, i = .skipIfKeyUp x

/-- The info of a fault lies where its condition puts it (60_exceptions.md R170, R172). -/
def infoFits : FaultCode → Nat → Prop
  | .stackOverflow, n => n = 16
  | .stackUnderflow, n => n = 0
  | .fetchOutOfRange, n => Config.maxFetch < n
  | .memOutOfRange, n => Config.maxAddr < n
  | .keyIndexOutOfRange, n => 15 < n ∧ n ≤ 255

/-- A fault record the machine can have latched: a fetch fault has no word and its own `PC` as address and info; any
other has the word of an instruction that can raise it. -/
def FaultRecord.Possible (r : FaultRecord) : Prop :=
  infoFits r.code r.info ∧
    match r.word with
    | none => r.code = .fetchOutOfRange ∧ r.info = r.addr.toNat
    | some w => r.addr.toNat ≤ Config.maxFetch ∧ ∃ i, decode w = .ok i ∧ canRaise r.code i

/-- The six instructions that write `VF` as a flag (10_state.md R21). -/
def WritesFlag (i : Instr) : Prop :=
  (∃ x y, i = .addReg x y) ∨ (∃ x y, i = .subReg x y) ∨ (∃ x y, i = .subRegRev x y) ∨ (∃ x y, i = .shiftRight x y) ∨
    (∃ x y, i = .shiftLeft x y) ∨ ∃ x y n, i = .drawSprite x y n

/-- The instructions that name `V[k]` as a destination (10_state.md R20). -/
def NamesDestination (k : RegIdx) (i : Instr) : Prop :=
  (∃ nn, i = .loadImm k nn) ∨ (∃ nn, i = .addImm k nn) ∨ (∃ y, i = .move k y) ∨ (∃ y, i = .orReg k y) ∨
    (∃ y, i = .andReg k y) ∨ (∃ y, i = .xorReg k y) ∨ (∃ y, i = .addReg k y) ∨ (∃ y, i = .subReg k y) ∨
    (∃ y, i = .shiftRight k y) ∨ (∃ y, i = .subRegRev k y) ∨ (∃ y, i = .shiftLeft k y) ∨ (∃ nn, i = .randomAnd k nn) ∨
    i = .getDelay k ∨ i = .waitKey k ∨ ∃ x, k ≤ x ∧ i = .loadRegs x

/-- The pixel of a sprite at column `px`, row `py` of the grid: one of its `n` row bytes from `I` has a 1 at a column
that lands there after reduction modulo width and height, bit 7 being column 0 (44_display.md R151). -/
def SpriteCovers (s : State) (x y : RegIdx) (n : Nibble) (p : Pixel) : Prop :=
  ∃ row col : Nat, row < n.toNat ∧ col < 8 ∧ (Memory.read s.mem (s.base + row)).getLsbD (7 - col) = true ∧
    p.1.val = ((s.reg x).toNat + col) % 64 ∧ p.2.val = ((s.reg y).toNat + row) % 32

/-- The reachable values of `PC` (10_state.md R25). -/
def PcInReach (s : State) : Prop := s.pc.toNat ≤ 4350

/-- Every stack slot holds an address a `call` could have pushed, or its reset value (10_state.md R25). -/
def StackInReach (s : State) : Prop := ∀ k : Fin Config.stackDepth, s.stack[k].toNat ≤ Config.memSize

/-- THE INVARIANT: memory in canonical form, `PC` and stack in reach, the latched fault possible. -/
def Inv (s : State) : Prop :=
  Memory.wf s.mem = true ∧ PcInReach s ∧ StackInReach s ∧ ∀ r, s.fault = some r → FaultRecord.Possible r

end Sys2Proof
end

