-- ==== Sys2Proof/Certificates/Slice0/Obligations.lean ====
section
/-! DEFINITION. The statements for the provers. `pc` at the entry of an execute stage is `a + 2` (40_control_flow.md
R100), so "`pc` kept" is "`PC` = `a + 2` afterwards". Every frame is `KeepsAllBut`: each register, slot, key, cell and byte
of memory outside the named parts reads as before. -/

open Sys2Proof Sys2Proof.Machine

/-! ### Encoding -/

/-- Decoding an instruction's bytes gives it back, whatever bytes follow; every operand, every value (R88, an inference
the spec marks as its own; opcode numbers D21). -/
def Obligations.DecodeOfEncodeIsTheInstruction : Prop :=
  ∀ (i : Instr) (rest : List Byte), decodeBytes (encodeBytes i ++ rest) = .ok (i, rest)

/-- A word that decodes is the encoding of what it decodes to: no bit is dropped (R75, R88; D15, D21). -/
def Obligations.EncodeOfDecodeIsTheWord : Prop :=
  ∀ (w : Word) (i : Instr), decode w = .ok i → encode i = w

/-- The word of every instruction is its row of the opcode map with each operand in its field: `nnn` in bits 11..0, `x` in
bits 11..8, `y` in bits 7..4, `nn` in bits 7..0, `n` in bits 3..0 (R72, R73, R76, R88; opcode numbers D21). -/
def Obligations.EncodingsAreTheRowsOfTheMap : Prop :=
  ∀ (x y : RegIdx) (n : Nibble) (nn : Byte) (nnn : Addr),
    ((encode .clearScreen).toNat = 0x00E0 ∧ (encode .returnSub).toNat = 0x00EE ∧
      (encode (.jump nnn)).toNat = 0x1000 + nnn.toNat ∧ (encode (.call nnn)).toNat = 0x2000 + nnn.toNat ∧
      (encode (.loadIndex nnn)).toNat = 0xA000 + nnn.toNat ∧ (encode (.jumpOffset nnn)).toNat = 0xB000 + nnn.toNat) ∧
    ((encode (.skipIfEqImm x nn)).toNat = 0x3000 + 256 * x.val + nn.toNat ∧
      (encode (.skipIfNeImm x nn)).toNat = 0x4000 + 256 * x.val + nn.toNat ∧
      (encode (.loadImm x nn)).toNat = 0x6000 + 256 * x.val + nn.toNat ∧
      (encode (.addImm x nn)).toNat = 0x7000 + 256 * x.val + nn.toNat ∧
      (encode (.randomAnd x nn)).toNat = 0xC000 + 256 * x.val + nn.toNat) ∧
    ((encode (.skipIfEqReg x y)).toNat = 0x5000 + 256 * x.val + 16 * y.val ∧
      (encode (.skipIfNeReg x y)).toNat = 0x9000 + 256 * x.val + 16 * y.val ∧
      (encode (.move x y)).toNat = 0x8000 + 256 * x.val + 16 * y.val ∧
      (encode (.orReg x y)).toNat = 0x8001 + 256 * x.val + 16 * y.val ∧
      (encode (.andReg x y)).toNat = 0x8002 + 256 * x.val + 16 * y.val ∧
      (encode (.xorReg x y)).toNat = 0x8003 + 256 * x.val + 16 * y.val ∧
      (encode (.addReg x y)).toNat = 0x8004 + 256 * x.val + 16 * y.val ∧
      (encode (.subReg x y)).toNat = 0x8005 + 256 * x.val + 16 * y.val ∧
      (encode (.shiftRight x y)).toNat = 0x8006 + 256 * x.val + 16 * y.val ∧
      (encode (.subRegRev x y)).toNat = 0x8007 + 256 * x.val + 16 * y.val ∧
      (encode (.shiftLeft x y)).toNat = 0x800E + 256 * x.val + 16 * y.val ∧
      (encode (.drawSprite x y n)).toNat = 0xD000 + 256 * x.val + 16 * y.val + n.toNat) ∧
    ((encode (.skipIfKeyDown x)).toNat = 0xE09E + 256 * x.val ∧ (encode (.skipIfKeyUp x)).toNat = 0xE0A1 + 256 * x.val ∧
      (encode (.getDelay x)).toNat = 0xF007 + 256 * x.val ∧ (encode (.waitKey x)).toNat = 0xF00A + 256 * x.val ∧
      (encode (.setDelay x)).toNat = 0xF015 + 256 * x.val ∧ (encode (.setSound x)).toNat = 0xF018 + 256 * x.val ∧
      (encode (.addIndex x)).toNat = 0xF01E + 256 * x.val ∧ (encode (.fontAddress x)).toNat = 0xF029 + 256 * x.val ∧
      (encode (.storeBcd x)).toNat = 0xF033 + 256 * x.val ∧ (encode (.storeRegs x)).toNat = 0xF055 + 256 * x.val ∧
      (encode (.loadRegs x)).toNat = 0xF065 + 256 * x.val)

/-- The decoder of R75 and the mask and match map of R76 agree: a decoded word matches its own row and no other, and a
rejected word is reported whole and matches none (D15, D21). -/
def Obligations.DecoderAgreesWithOpcodeMap : Prop :=
  ∀ w : Word,
    (∀ i, decode w = .ok i → (rowsOf w).map (·.mnemonic) = [mnemonicOf i]) ∧
      ∀ e, decode w = .error e → e = .unrecognized w ∧ rowsOf w = []

/-- The unrecognized words are exactly the sets that R77 to R81 list, class by class (D15, D21). -/
def Obligations.UnrecognizedWordsAreTheListedSets : Prop :=
  ∀ w : Word,
    decode w = .error (.unrecognized w) ↔
      (w.toNat / 4096 = 0 ∧ w.toNat ≠ 0x00E0 ∧ w.toNat ≠ 0x00EE) ∨
      ((w.toNat / 4096 = 5 ∨ w.toNat / 4096 = 9) ∧ w.toNat % 16 ≠ 0) ∨
      (w.toNat / 4096 = 8 ∧ 8 ≤ w.toNat % 16 ∧ w.toNat % 16 ≠ 14) ∨
      (w.toNat / 4096 = 14 ∧ w.toNat % 256 ∉ [0x9E, 0xA1]) ∨
      (w.toNat / 4096 = 15 ∧ w.toNat % 256 ∉ [0x07, 0x0A, 0x15, 0x18, 0x1E, 0x29, 0x33, 0x55, 0x65])

/-- A few words written out from R76 decode to their instructions; the byte at the lower address is the more
significant (T1 of 95_test_vectors.md). -/
def Obligations.WordsOfTheOpcodeMapDecode : Prop :=
  decode 0x00EE = .ok .returnSub ∧ decode 0x2ABC = .ok (.call 0xABC) ∧ decode 0x3A7F = .ok (.skipIfEqImm 10 0x7F) ∧
    decode 0x8AB7 = .ok (.subRegRev 10 11) ∧ decode 0xA123 = .ok (.loadIndex 0x123) ∧
    decode 0xD125 = .ok (.drawSprite 1 2 5) ∧ decode 0xE1A1 = .ok (.skipIfKeyUp 1) ∧
    decode 0xF10A = .ok (.waitKey 1) ∧ decodeBytes [0x12, 0x34] = .ok (.jump 0x234, [])

/-! ### The step -/

/-- When the core runs and the two bytes at `PC` decode to `i`, the step is `exec i` on the state with `PC` advanced by
2 (R100; the running condition is the latch of D16, the bound that of D5). -/
def Obligations.StepRunsTheDecodedInstruction : Prop :=
  ∀ (s : State) (i : Instr), Running s → s.pc.toNat ≤ 4094 → decode (wordAtPc s) = .ok i →
    step s = exec i (s.setPc (s.pc + 2))

/-- An unrecognized word: `PC` + 2, the diagnostic with its address and word, nothing else (R83; the content of the event
is D17, its history is the model's, log entry 5). -/
def Obligations.UnrecognizedWordIsADiagnosticNop : Prop :=
  ∀ (s : State) (e : DecodeReject), Running s → s.pc.toNat ≤ 4094 → decode (wordAtPc s) = .error e →
    ∃ t, step s = .next t ∧ t.pc = s.pc + 2 ∧ t.diagnostics = ⟨s.pc, wordAtPc s⟩ :: s.diagnostics ∧
      KeepsAllBut (fun p => p = .pc ∨ p = .diagnostics) s t

/-- A halted core's step changes nothing and returns `Halted` (R174, which marks this as decision D16; log entry 2). -/
def Obligations.HaltedStepChangesNothing : Prop :=
  ∀ s : State, ¬ Running s → step s = .next s ∧ command .step s = .next (s, .halted)

/-- A fetch with `PC` above 4094 latches `FetchOutOfRange` with `PC` unchanged and nothing else changed (R60, decision
D5; the record, D16; a next state by log entry 1). -/
def Obligations.FetchPastTheEndFaults : Prop :=
  ∀ s : State, Running s → 4094 < s.pc.toNat →
    ∃ t, step s = .next t ∧ t.fault = some ⟨.fetchOutOfRange, s.pc, none, s.pc.toNat⟩ ∧ KeepsAllBut (· = .fault) s t

/-- The status of a running core's step: `Ok` when no fault is latched after it, else the fault it raised (R100, R174;
marked as decision D16, the status is an output, log entry 2). -/
def Obligations.StepReportsOkOrItsFault : Prop :=
  ∀ s : State, Running s →
    ∃ t r, step s = .next t ∧ command .step s = .next (t, r) ∧ (t.fault = none → r = .ok) ∧
      ∀ f, t.fault = some f → r = .faulted f

/-- Every instruction and every step, from every state, answers a next state: the range checks of R59 and R60 leave no
access to an address that does not exist, and nothing is refused (log entry 1). -/
def Obligations.EveryStepAnswersANextState : Prop :=
  (∀ (i : Instr) (s : State), ∃ t, exec i s = .next t) ∧ ∀ s : State, ∃ t, step s = .next t

/-- Faults are precise: a step that raises one changes nothing but `FAULT` and the fetch advance, which
`FetchOutOfRange` has not; the record names the instruction's own address and word, and an instruction that can raise that
fault (R172, R173, R170; marked as decision D16; a next state by log entry 1). -/
def Obligations.FaultsArePrecise : Prop :=
  ∀ (s t : State) (r : FaultRecord), Running s → step s = .next t → t.fault = some r →
    r.addr = s.pc ∧ infoFits r.code r.info ∧
      (r.code = .fetchOutOfRange → r.word = none ∧ KeepsAllBut (· = .fault) s t) ∧
      (r.code ≠ .fetchOutOfRange →
        r.word = some (wordAtPc s) ∧ (∃ i, decode (wordAtPc s) = .ok i ∧ canRaise r.code i) ∧ t.pc = s.pc + 2 ∧
          KeepsAllBut (fun p => p = .fault ∨ p = .pc) s t)

/-- Every step keeps the invariant: memory canonical, `PC` at most 4350, stack slots at most 4096, the latched fault one
the machine can raise (R25, marked as derived by the spec; R172, D16; the canonical form is log entry 9). -/
def Obligations.StepKeepsTheInvariant : Prop :=
  ∀ s t : State, Inv s → step s = .next t → Inv t

/-- The state after reset meets the invariant. -/
def Obligations.ResetMeetsTheInvariant : Prop := Inv State.reset

/-- Every run of commands in any order, a `load` of any bytes and a `reset` among them, keeps the invariant (R191, D18). -/
def Obligations.CommandsKeepTheInvariant : Prop :=
  ∀ (cs : List Command) (s t : State), Inv s → runCommands cs s = .next t → Inv t

/-- No command but `reset` changes a latched fault, and no `step` while it is latched changes anything (R32, R174, R175;
D16, D18). -/
def Obligations.OnlyResetClearsAFault : Prop :=
  (∀ (c : Command) (s t : State) (a : Response), c ≠ .reset → ¬ Running s → command c s = .next (t, a) →
      t.fault = s.fault) ∧
    (∀ (cs : List Command) (s t : State), .reset ∉ cs → ¬ Running s → runCommands cs s = .next t →
      t.fault = s.fault ∧ t.pc = s.pc ∧ t.v = s.v) ∧
    ∀ (s t : State) (a : Response), command .reset s = .next (t, a) → Running t

/-- Over all instructions: no instruction writes a key or the event history, only `set-delay` writes `DT`, only `set-sound`
writes `ST`, only `random-and` takes a random byte (R28, R29, R184; the draws count and the history are the model's, log
entries 4 and 5). -/
def Obligations.TimersAndKeysHaveTheirWriters : Prop :=
  ∀ (i : Instr) (s t : State), exec i s = .next t →
    (∀ k, t.key k = s.key k) ∧ t.diagnostics = s.diagnostics ∧
      ((∀ x, i ≠ .setDelay x) → t.delay = s.delay) ∧
      ((∀ x, i ≠ .setSound x) → t.sound = s.sound) ∧
      ((∀ x nn, i ≠ .randomAnd x nn) → t.draws = s.draws)

/-- Over all instructions: only `load-index`, `add-index`, `font-address` write `I`; only `call` and `return` touch the
stack; only the two display instructions write the framebuffer; only `store-bcd` and `store-regs` write memory (R23, R26,
R30, R50, R68). -/
def Obligations.IndexStackScreenMemoryHaveTheirWriters : Prop :=
  ∀ (i : Instr) (s t : State), exec i s = .next t →
    ((∀ nnn, i ≠ .loadIndex nnn) → (∀ x, i ≠ .addIndex x) → (∀ x, i ≠ .fontAddress x) → t.index = s.index) ∧
      ((∀ nnn, i ≠ .call nnn) → i ≠ .returnSub → t.sp = s.sp ∧ t.stack = s.stack) ∧
      (i ≠ .clearScreen → (∀ x y n, i ≠ .drawSprite x y n) → ∀ p, t.fb.cell p = s.fb.cell p) ∧
      ((∀ x, i ≠ .storeBcd x) → (∀ x, i ≠ .storeRegs x) → ∀ a, Memory.read t.mem a = Memory.read s.mem a)

/-- Over all instructions and registers: a register changes only if the instruction names it as its destination, or it is
`VF` and the instruction is one of the six flag writers; and a flag writer that raises no fault leaves 0 or 1 in `VF`
(R20, R21). -/
def Obligations.RegistersHaveTheirWriters : Prop :=
  ∀ (i : Instr) (s t : State), exec i s = .next t →
    (∀ k, t.reg k ≠ s.reg k → NamesDestination k i ∨ (k = 15 ∧ WritesFlag i)) ∧
      (WritesFlag i → t.fault = s.fault → Running s → (t.reg 15).toNat ≤ 1)

/-- No instruction reads `ST`: two states that differ only in `ST` give next states that differ at most in `ST` (R28). -/
def Obligations.NoInstructionReadsTheSoundTimer : Prop :=
  ∀ (i : Instr) (s t : State) (b : Byte), exec i s = .next t →
    ∃ u, exec i { s with sound := b } = .next u ∧ KeepsAllBut (· = .sound) t u

/-- A program that has finished stays where it is: a step at a jump to itself changes nothing (R204, decision D28). -/
def Obligations.FinishedProgramStaysPut : Prop :=
  ∀ s : State, Finished s → step s = .next s

/-! ### Control transfer -/

/-- `jump`: `PC` is the address, nothing else changes (R102). -/
def Obligations.JumpGoesToItsAddress : Prop :=
  ∀ (nnn : Addr) (s : State),
    ∃ t, exec (.jump nnn) s = .next t ∧ t.pc.toNat = nnn.toNat ∧ KeepsAllBut (· = .pc) s t

/-- `jump-offset`: `PC` = `V0` + `nnn`, not reduced (R104; that it is not masked is decision D13). -/
def Obligations.JumpOffsetAddsV0 : Prop :=
  ∀ (nnn : Addr) (s : State),
    ∃ t, exec (.jumpOffset nnn) s = .next t ∧ t.pc.toNat = (s.reg 0).toNat + nnn.toNat ∧ KeepsAllBut (· = .pc) s t

/-- `call`: with a slot free, the advanced `PC` is pushed and `PC` is the address; with `SP` = 16, `StackOverflow` with info
16 and nothing else (R103; the depth of 16 is decision D4, the latch and its record decision D16, and that the fault is a
next state is DEDUCED, log entry 1). -/
def Obligations.CallPushesAndJumps : Prop :=
  ∀ (nnn : Addr) (s : State),
    (∀ k : Fin Config.stackDepth, s.sp.val = k.val →
      ∃ t, exec (.call nnn) s = .next t ∧ t.stack[k] = s.pc ∧ t.sp.val = s.sp.val + 1 ∧ t.pc.toNat = nnn.toNat ∧
        KeepsAllBut (fun p => p = .pc ∨ p = .sp ∨ p = .slot k) s t) ∧
      (Running s → s.sp.val = 16 →
        ∃ t r, exec (.call nnn) s = .next t ∧ t.fault = some r ∧ r.code = .stackOverflow ∧ r.info = 16 ∧
          KeepsAllBut (· = .fault) s t)

/-- `return`: with an entry, `SP` decrements and `PC` is that entry, the slot keeping its value; with `SP` = 0,
`StackUnderflow` with info 0 and nothing else (R101; the latch and its record are decision D16, and that the fault is a
next state is DEDUCED, log entry 1). -/
def Obligations.ReturnPopsIntoPc : Prop :=
  ∀ s : State,
    (∀ k : Fin Config.stackDepth, s.sp.val = k.val + 1 →
      ∃ t, exec .returnSub s = .next t ∧ t.pc = s.stack[k] ∧ t.sp.val = k.val ∧
        KeepsAllBut (fun p => p = .pc ∨ p = .sp) s t) ∧
      (Running s → s.sp.val = 0 →
        ∃ t r, exec .returnSub s = .next t ∧ t.fault = some r ∧ r.code = .stackUnderflow ∧ r.info = 0 ∧
          KeepsAllBut (· = .fault) s t)

/-- A `return` straight after a `call` that had a slot free resumes after the call with `SP` as before (R27, S5; the depth of 16 is
decision D4). -/
def Obligations.ReturnUndoesCall : Prop :=
  ∀ (nnn : Addr) (s t : State), s.sp.val < 16 → exec (.call nnn) s = .next t →
    ∃ u, exec .returnSub t = .next u ∧ u.pc = s.pc ∧ u.sp = s.sp

/-! ### Skips -/

/-- The two immediate skips add 2 to the advanced `PC` exactly if `V[x]` equals, or differs from, `nn` (R110, R111). -/
def Obligations.ImmediateSkipsCompare : Prop :=
  ∀ (x : RegIdx) (nn : Byte) (s : State),
    (∃ t, exec (.skipIfEqImm x nn) s = .next t ∧
        t.pc = (if (s.reg x).toNat = nn.toNat then s.pc + 2 else s.pc) ∧ KeepsAllBut (· = .pc) s t) ∧
      ∃ t, exec (.skipIfNeImm x nn) s = .next t ∧
        t.pc = (if (s.reg x).toNat = nn.toNat then s.pc else s.pc + 2) ∧ KeepsAllBut (· = .pc) s t

/-- The two register skips add 2 to the advanced `PC` exactly if `V[x]` equals, or differs from, `V[y]` (R112, R113). -/
def Obligations.RegisterSkipsCompare : Prop :=
  ∀ (x y : RegIdx) (s : State),
    (∃ t, exec (.skipIfEqReg x y) s = .next t ∧
        t.pc = (if (s.reg x).toNat = (s.reg y).toNat then s.pc + 2 else s.pc) ∧ KeepsAllBut (· = .pc) s t) ∧
      ∃ t, exec (.skipIfNeReg x y) s = .next t ∧
        t.pc = (if (s.reg x).toNat = (s.reg y).toNat then s.pc else s.pc + 2) ∧ KeepsAllBut (· = .pc) s t

/-- The two key skips sample the key whose index `V[x]` holds: they add 2 to the advanced `PC` exactly if it is pressed, or
not pressed (R114, R115). -/
def Obligations.KeySkipsSampleTheKey : Prop :=
  ∀ (x : RegIdx) (s : State) (k : KeyIdx), (s.reg x).toNat = k.val →
    (∃ t, exec (.skipIfKeyDown x) s = .next t ∧ t.pc = (if s.key k = true then s.pc + 2 else s.pc) ∧
        KeepsAllBut (· = .pc) s t) ∧
      ∃ t, exec (.skipIfKeyUp x) s = .next t ∧ t.pc = (if s.key k = true then s.pc else s.pc + 2) ∧
        KeepsAllBut (· = .pc) s t

/-- A key index above 15 latches `KeyIndexOutOfRange` with the index, nothing else changing (R114, R115: decision D8; the
record, D16; a next state by log entry 1). -/
def Obligations.KeyIndexAboveFifteenFaults : Prop :=
  ∀ (x : RegIdx) (s : State) (i : Instr), Running s → 15 < (s.reg x).toNat →
    i = .skipIfKeyDown x ∨ i = .skipIfKeyUp x →
    ∃ t, exec i s = .next t ∧
      t.fault = some ⟨.keyIndexOutOfRange, s.pc - 2, some (encode i), (s.reg x).toNat⟩ ∧ KeepsAllBut (· = .fault) s t

/-! ### Registers, arithmetic, logic -/

/-- `load-imm` and `move` write `V[x]` and nothing else (R120, R122). -/
def Obligations.LoadImmAndMoveWriteVx : Prop :=
  ∀ (x y : RegIdx) (nn : Byte) (s : State),
    (∃ t, exec (.loadImm x nn) s = .next t ∧ t.reg x = nn ∧ KeepsAllBut (· = .reg x) s t) ∧
      ∃ t, exec (.move x y) s = .next t ∧ t.reg x = s.reg y ∧ KeepsAllBut (· = .reg x) s t

/-- `add-imm`: `V[x]` + `nn` modulo 256, and no flag: `VF` is kept unless x = 15 (R121). -/
def Obligations.AddImmWrapsWithoutFlag : Prop :=
  ∀ (x : RegIdx) (nn : Byte) (s : State),
    ∃ t, exec (.addImm x nn) s = .next t ∧ (t.reg x).toNat = ((s.reg x).toNat + nn.toNat) % 256 ∧
      KeepsAllBut (· = .reg x) s t

/-- `or`, `and`, `xor` combine `V[x]` and `V[y]` bit by bit into `V[x]` and leave `VF` alone unless x = 15 (R123, R124,
R125). -/
def Obligations.LogicIsBitwiseWithoutFlag : Prop :=
  ∀ (x y : RegIdx) (s : State),
    (∃ t, exec (.orReg x y) s = .next t ∧
        (∀ b, (t.reg x).getLsbD b = ((s.reg x).getLsbD b || (s.reg y).getLsbD b)) ∧ KeepsAllBut (· = .reg x) s t) ∧
      (∃ t, exec (.andReg x y) s = .next t ∧
        (∀ b, (t.reg x).getLsbD b = ((s.reg x).getLsbD b && (s.reg y).getLsbD b)) ∧ KeepsAllBut (· = .reg x) s t) ∧
      ∃ t, exec (.xorReg x y) s = .next t ∧
        (∀ b, (t.reg x).getLsbD b = ((s.reg x).getLsbD b ^^ (s.reg y).getLsbD b)) ∧ KeepsAllBut (· = .reg x) s t

/-- `add-reg`: the sum modulo 256 in `V[x]`, then the carry in `VF`; with x = 15 the carry stays (R126). -/
def Obligations.AddRegWritesSumThenCarry : Prop :=
  ∀ (x y : RegIdx) (s : State),
    ∃ t, exec (.addReg x y) s = .next t ∧
      (t.reg 15).toNat = (if 255 < (s.reg x).toNat + (s.reg y).toNat then 1 else 0) ∧
      (x ≠ 15 → (t.reg x).toNat = ((s.reg x).toNat + (s.reg y).toNat) % 256) ∧
      KeepsAllBut (fun p => p = .reg x ∨ p = .reg 15) s t

/-- `sub-reg`: `V[x]` - `V[y]` modulo 256 in `V[x]`, then 1 in `VF` exactly if `V[x]` >= `V[y]`; with x = 15 the flag stays
(R127). -/
def Obligations.SubRegWritesDifferenceThenNoBorrow : Prop :=
  ∀ (x y : RegIdx) (s : State),
    ∃ t, exec (.subReg x y) s = .next t ∧
      (t.reg 15).toNat = (if (s.reg y).toNat ≤ (s.reg x).toNat then 1 else 0) ∧
      (x ≠ 15 → ((t.reg x).toNat : Int) = ((s.reg x).toNat - (s.reg y).toNat : Int) % 256) ∧
      KeepsAllBut (fun p => p = .reg x ∨ p = .reg 15) s t

/-- `sub-reg-rev`: `V[y]` - `V[x]` modulo 256 in `V[x]`, then 1 in `VF` exactly if `V[y]` >= `V[x]`; with x = 15 the flag
stays (R129). -/
def Obligations.SubRegRevWritesDifferenceThenNoBorrow : Prop :=
  ∀ (x y : RegIdx) (s : State),
    ∃ t, exec (.subRegRev x y) s = .next t ∧
      (t.reg 15).toNat = (if (s.reg x).toNat ≤ (s.reg y).toNat then 1 else 0) ∧
      (x ≠ 15 → ((t.reg x).toNat : Int) = ((s.reg y).toNat - (s.reg x).toNat : Int) % 256) ∧
      KeepsAllBut (fun p => p = .reg x ∨ p = .reg 15) s t

/-- The shifts move `V[x]` by one with zero fill and put the dropped bit in `VF` last, whatever `y` is; with x = 15 the
dropped bit stays (R128, R130). -/
def Obligations.ShiftsMoveByOneThenDroppedBit : Prop :=
  ∀ (x y : RegIdx) (s : State),
    (∃ t, exec (.shiftRight x y) s = .next t ∧ (t.reg 15).toNat = (s.reg x).toNat % 2 ∧
        (x ≠ 15 → (t.reg x).toNat = (s.reg x).toNat / 2) ∧ KeepsAllBut (fun p => p = .reg x ∨ p = .reg 15) s t) ∧
      ∃ t, exec (.shiftLeft x y) s = .next t ∧ (t.reg 15).toNat = (s.reg x).toNat / 128 ∧
        (x ≠ 15 → (t.reg x).toNat = 2 * (s.reg x).toNat % 256) ∧
        KeepsAllBut (fun p => p = .reg x ∨ p = .reg 15) s t

/-- `random-and` takes exactly one byte, a FREE VALUE, and writes it masked by `nn` (R131, R184: decision D20; the free
value is log entry 3, its place in the supply log entry 4). -/
def Obligations.RandomAndMasksOneFreeByte : Prop :=
  ∀ (x : RegIdx) (nn : Byte) (s : State),
    ∃ t, exec (.randomAnd x nn) s = .next t ∧
      (∀ b, (t.reg x).getLsbD b = ((Config.randomByte s.draws).getLsbD b && nn.getLsbD b)) ∧
      t.draws = s.draws + 1 ∧ KeepsAllBut (fun p => p = .reg x ∨ p = .draws) s t

/-! ### Index and memory -/

/-- `load-index`: `I` is the address, nothing else changes (R140). -/
def Obligations.LoadIndexWritesI : Prop :=
  ∀ (nnn : Addr) (s : State),
    ∃ t, exec (.loadIndex nnn) s = .next t ∧ t.index.toNat = nnn.toNat ∧ KeepsAllBut (· = .index) s t

/-- `add-index` wraps modulo 65536 without a flag, and `font-address` multiplies the whole of `V[x]` by 5 (R141, R142; both
widths are decision D13). -/
def Obligations.AddIndexAndFontAddressWriteI : Prop :=
  ∀ (x : RegIdx) (s : State),
    (∃ t, exec (.addIndex x) s = .next t ∧ t.index.toNat = (s.index.toNat + (s.reg x).toNat) % 65536 ∧
        KeepsAllBut (· = .index) s t) ∧
      ∃ t, exec (.fontAddress x) s = .next t ∧ t.index.toNat = 5 * (s.reg x).toNat ∧ KeepsAllBut (· = .index) s t

/-- `store-bcd`: when `I` + 2 exists, the hundreds, tens and ones of `V[x]` are at `I`, `I`+1, `I`+2 and every other byte
and part is kept (R143; the range condition is decision D7). -/
def Obligations.StoreBcdWritesThreeDigits : Prop :=
  ∀ (x : RegIdx) (s : State), Memory.wf s.mem = true → s.base + 2 ≤ 4095 →
    ∃ t, exec (.storeBcd x) s = .next t ∧
      (Memory.read t.mem s.base).toNat = (s.reg x).toNat / 100 ∧
      (Memory.read t.mem (s.base + 1)).toNat = (s.reg x).toNat / 10 % 10 ∧
      (Memory.read t.mem (s.base + 2)).toNat = (s.reg x).toNat % 10 ∧
      KeepsAllBut (fun p => ∃ a, s.base ≤ a ∧ a < s.base + 3 ∧ p = .byte a) s t

/-- `store-regs`: when `I` + x exists, `V[k]` is at `I` + k for every k up to x, every other byte and part, `I` among them,
kept (R144; the range condition is decision D7, that `I` stays D14). -/
def Obligations.StoreRegsWritesTheRange : Prop :=
  ∀ (x : RegIdx) (s : State), Memory.wf s.mem = true → s.base + x.val ≤ 4095 →
    ∃ t, exec (.storeRegs x) s = .next t ∧
      (∀ k : RegIdx, k ≤ x → Memory.read t.mem (s.base + k.val) = s.reg k) ∧
      KeepsAllBut (fun p => ∃ a, s.base ≤ a ∧ a ≤ s.base + x.val ∧ p = .byte a) s t

/-- `load-regs`: when `I` + x exists, `V[k]` is the byte at `I` + k for every k up to x, every other part, `I` and memory
among them, kept (R145; the range condition is decision D7, that `I` stays D14). -/
def Obligations.LoadRegsReadsTheRange : Prop :=
  ∀ (x : RegIdx) (s : State), s.base + x.val ≤ 4095 →
    ∃ t, exec (.loadRegs x) s = .next t ∧
      (∀ k : RegIdx, k ≤ x → t.reg k = Memory.read s.mem (s.base + k.val)) ∧
      KeepsAllBut (fun p => ∃ k : RegIdx, k ≤ x ∧ p = .reg k) s t

/-- A memory instruction whose highest address `hi` is above 4095 latches `MemOutOfRange` with that address and does nothing
else: no byte, register or cell changes (R59: decision D7; the record, D16; a next state by log entry 1). -/
def Obligations.DataAccessPastTheEndFaults : Prop :=
  ∀ (i : Instr) (s : State) (hi : Nat), Running s → 4095 < hi →
    (∃ x y n, i = .drawSprite x y n ∧ 1 ≤ n.toNat ∧ hi = s.base + n.toNat - 1) ∨
      (∃ x, i = .storeBcd x ∧ hi = s.base + 2) ∨
      (∃ x : RegIdx, (i = .storeRegs x ∨ i = .loadRegs x) ∧ hi = s.base + x.val) →
    ∃ t, exec i s = .next t ∧ t.fault = some ⟨.memOutOfRange, s.pc - 2, some (encode i), hi⟩ ∧
      KeepsAllBut (· = .fault) s t

/-! ### Display -/

/-- `clear-screen` unsets every cell and changes nothing else, `VF` included (R150). -/
def Obligations.ClearScreenUnsetsEveryCell : Prop :=
  ∀ s : State,
    ∃ t, exec .clearScreen s = .next t ∧ (∀ p : Pixel, t.fb.cell p = false) ∧
      KeepsAllBut (fun p => ∃ q, p = .cell q) s t

/-- `draw-sprite`, drawn pixel after pixel, equals the XOR of the whole sprite at once: when its rows exist, a cell changes
exactly if the sprite covers it, `VF` is 1 exactly if some covered cell was set, and nothing else changes (R151, R152; bit
order D11, sums and `n` = 0 D12, range D7). -/
def Obligations.DrawSpriteIsXorWithCollision : Prop :=
  ∀ (x y : RegIdx) (n : Nibble) (s : State), n.toNat = 0 ∨ s.base + n.toNat - 1 ≤ 4095 →
    ∃ t, exec (.drawSprite x y n) s = .next t ∧
      (∀ p : Pixel, SpriteCovers s x y n p → t.fb.cell p = !s.fb.cell p) ∧
      (∀ p : Pixel, ¬ SpriteCovers s x y n p → t.fb.cell p = s.fb.cell p) ∧
      ((∃ p : Pixel, SpriteCovers s x y n p ∧ s.fb.cell p = true) → t.reg 15 = 1) ∧
      ((∀ p : Pixel, SpriteCovers s x y n p → s.fb.cell p = false) → t.reg 15 = 0) ∧
      KeepsAllBut (fun p => p = .reg 15 ∨ ∃ q, p = .cell q) s t

/-- Drawing the same sprite twice restores the framebuffer, and the second `VF` is 1 exactly if the first draw set a cell
(R153, marked as derived by the spec). -/
def Obligations.DrawingTwiceRestoresTheScreen : Prop :=
  ∀ (x y : RegIdx) (n : Nibble) (s t : State), x ≠ 15 → y ≠ 15 → n.toNat = 0 ∨ s.base + n.toNat - 1 ≤ 4095 →
    exec (.drawSprite x y n) s = .next t →
    ∃ u, exec (.drawSprite x y n) t = .next u ∧ (∀ p : Pixel, u.fb.cell p = s.fb.cell p) ∧
      (u.reg 15 = 1 ↔ ∃ p : Pixel, s.fb.cell p = false ∧ t.fb.cell p = true)

/-- The framebuffer view has 2048 cells, the cell at column px and row py at index py * 64 + px (R185, R30; the size is
decision D2, the grid log entry 10). -/
def Obligations.FramebufferViewIsIndexedByRow : Prop :=
  ∀ s : State, s.framebufferView.length = 2048 ∧
    ∀ p : Pixel, s.framebufferView[p.2.val * 64 + p.1.val]? = some (s.fb.cell p)

/-! ### Timers and keys -/

/-- `get-delay` reads `DT` into `V[x]` and `set-delay` writes `V[x]` to `DT`, nothing else changing (R160, R162). -/
def Obligations.DelayTimerIsReadAndWritten : Prop :=
  ∀ (x : RegIdx) (s : State),
    (∃ t, exec (.getDelay x) s = .next t ∧ t.reg x = s.delay ∧ KeepsAllBut (· = .reg x) s t) ∧
      ∃ t, exec (.setDelay x) s = .next t ∧ t.delay = s.reg x ∧ KeepsAllBut (· = .delay) s t

/-- `set-sound` writes `V[x]` to `ST` and nothing else; sound is active at once exactly if the value is not 0, and after n
ticks exactly if the value is above n (R163). -/
def Obligations.SetSoundIsActiveForItsTicks : Prop :=
  ∀ (x : RegIdx) (s : State),
    ∃ t, exec (.setSound x) s = .next t ∧ t.sound = s.reg x ∧ (t.soundActive = true ↔ s.reg x ≠ 0) ∧
      (∀ n : Nat, (State.ticks n t).soundActive = true ↔ n < (s.reg x).toNat) ∧ KeepsAllBut (· = .sound) s t

/-- `tick` takes 1 from each timer that is not 0 and nothing else, halted or not (R181; that it works while halted is
decision D18). -/
def Obligations.TickCountsBothTimersDown : Prop :=
  ∀ s : State,
    command .tick s = .next (s.tick, .none) ∧ s.tick.delay.toNat = s.delay.toNat - 1 ∧
      s.tick.sound.toNat = s.sound.toNat - 1 ∧ KeepsAllBut (fun p => p = .delay ∨ p = .sound) s s.tick

/-- Timers move only by ticks: no instruction but their own writers changes them, `get-delay` after `set-delay` reads the
value back, and `n` ticks after `set-delay` of v leave max(v - n, 0) (R209). -/
def Obligations.TimersMoveOnlyByTicks : Prop :=
  (∀ (i : Instr) (s t : State), exec i s = .next t →
      ((∀ x, i ≠ .setDelay x) → t.delay = s.delay) ∧ ((∀ x, i ≠ .setSound x) → t.sound = s.sound)) ∧
    ∀ (x y : RegIdx) (s t : State), exec (.setDelay x) s = .next t →
      (∃ u, exec (.getDelay y) t = .next u ∧ u.reg y = s.reg x) ∧
        ∀ n : Nat, (State.ticks n t).delay.toNat = (s.reg x).toNat - n

/-- `wait-key`: with a key pressed, the least pressed index is in `V[x]`; with none, `PC` goes back by 2; nothing else
changes (R161; the least index is decision D9). -/
def Obligations.WaitKeyTakesTheLeastKeyOrRewinds : Prop :=
  ∀ (x : RegIdx) (s : State),
    (∀ k : KeyIdx, s.key k = true → (∀ j, j < k → s.key j = false) →
      ∃ t, exec (.waitKey x) s = .next t ∧ (t.reg x).toNat = k.val ∧ KeepsAllBut (· = .reg x) s t) ∧
      ((∀ k, s.key k = false) →
        ∃ t, exec (.waitKey x) s = .next t ∧ t.pc = s.pc - 2 ∧ KeepsAllBut (· = .pc) s t)

/-- While no key is pressed, a step at a `wait-key` changes nothing at all, so any number of steps leaves the machine where
it is (R161, corner case (a)). -/
def Obligations.WaitingChangesNothing : Prop :=
  ∀ (s : State) (x : RegIdx) (n : Nat), Running s → s.pc.toNat ≤ 4094 → decode (wordAtPc s) = .ok (.waitKey x) →
    (∀ k, s.key k = false) → core.run n s = .next s

/-! ### Commands -/

/-- `set_key` sets that key's state and nothing else (R183). -/
def Obligations.SetKeyWritesOneKey : Prop :=
  ∀ (k : KeyIdx) (pressed : Bool) (s : State),
    ∃ t, command (.setKey k pressed) s = .next (t, .none) ∧ t.key k = pressed ∧ KeepsAllBut (· = .key k) s t

/-- The two views change nothing: `framebuffer` returns the cells, `sound_active` whether `ST` is not 0 (R182, R185; their
place among the commands is log entry 7). -/
def Obligations.ViewsOnlyRead : Prop :=
  ∀ s : State, command .framebuffer s = .next (s, .cells s.framebufferView) ∧
    ∃ on : Bool, command .soundActive s = .next (s, .active on) ∧ (on = true ↔ 0 < s.sound.toNat)

/-- `load` copies at most 3584 bytes to 512 upward and changes nothing else; a longer image is rejected with nothing
written (R202; the corner cases are decision D24). -/
def Obligations.LoadCopiesTheImageOrRejects : Prop :=
  ∀ (bytes : List Byte) (s : State),
    (Memory.wf s.mem = true → bytes.length ≤ 3584 →
      ∃ t, command (.load bytes) s = .next (t, .ok) ∧
        (∀ (k : Nat) (h : k < bytes.length), Memory.read t.mem (512 + k) = bytes[k]) ∧
        KeepsAllBut (fun p => ∃ a, 512 ≤ a ∧ a < 512 + bytes.length ∧ p = .byte a) s t) ∧
      (3584 < bytes.length → command (.load bytes) s = .next (s, .loadError))

/-- What reset leaves, as R36 and R200 give it: `PC` = 512, timers 0, the glyph table at 0 to 79 (the source); every other
register, slot, key, cell and byte 0, no fault (decisions D1, D3, D16); the `reset` command leaves exactly that whatever the
state was, but for the model's own fields (D26; log entries 4 to 6). -/
def Obligations.ResetLeavesTheResetValues : Prop :=
  ∀ s : State, ∃ t, command .reset s = .next (t, .none) ∧
    KeepsAllBut (fun p => p = .diagnostics ∨ p = .draws) State.reset t ∧
    t.pc.toNat = 512 ∧ t.delay = 0 ∧ t.sound = 0 ∧ t.index = 0 ∧ t.sp = 0 ∧ t.fault = none ∧
    (∀ k, t.reg k = 0) ∧ (∀ k : Fin Config.stackDepth, t.stack[k] = 0) ∧ (∀ k, t.key k = false) ∧
    (∀ p : Pixel, t.fb.cell p = false) ∧
    (∀ a (h : a < Config.glyphs.length), Memory.read t.mem a = Config.glyphs[a]) ∧
    ∀ a, 80 ≤ a → Memory.read t.mem a = 0
end

