-- ==== Sys2Proof/Laws/Decode.lean ====
section
/-! SUPPORT. Encoding and fields as numbers: the word of each format, each field of a word, and each field of each
format's word (30_encoding.md R72, R88). -/

namespace Sys2Proof

/-! ### As numbers -/
theorem toNat_encNNN (op : Nibble) (nnn : Addr) : (encNNN op nnn).toNat = op.toNat * 4096 + nnn.toNat := by
  simp only [encNNN, BitVec.toNat_append]
  rw [← Nat.shiftLeft_add_eq_or_of_lt nnn.isLt, Nat.shiftLeft_eq]

theorem toNat_regBits (x : RegIdx) : (regBits x).toNat = x.val := rfl

theorem toNat_encXNN (op : Nibble) (x : RegIdx) (nn : Byte) :
    (encXNN op x nn).toNat = op.toNat * 4096 + x.val * 256 + nn.toNat := by
  simp only [encXNN, BitVec.toNat_append]
  rw [← Nat.shiftLeft_add_eq_or_of_lt nn.isLt, ← Nat.shiftLeft_add_eq_or_of_lt (regBits x).isLt]
  simp only [Nat.shiftLeft_eq, toNat_regBits]
  omega

theorem toNat_encXYN (op : Nibble) (x y : RegIdx) (n : Nibble) :
    (encXYN op x y n).toNat = op.toNat * 4096 + x.val * 256 + y.val * 16 + n.toNat := by
  simp only [encXYN, BitVec.toNat_append]
  rw [← Nat.shiftLeft_add_eq_or_of_lt (regBits x).isLt, ← Nat.shiftLeft_add_eq_or_of_lt n.isLt]
  have h : (regBits y).toNat <<< 4 + n.toNat < 2 ^ 8 := by
    have := n.isLt; have := y.isLt
    rw [Nat.shiftLeft_eq, toNat_regBits]; omega
  rw [← Nat.shiftLeft_add_eq_or_of_lt h]
  simp only [Nat.shiftLeft_eq, toNat_regBits]
  omega

theorem toNat_opOf (w : Word) : (opOf w).toNat = w.toNat / 4096 := by
  have := w.isLt
  simp only [opOf, BitVec.extractLsb'_toNat, Nat.shiftRight_eq_div_pow]; omega

theorem val_xOf (w : Word) : (xOf w).val = w.toNat / 256 % 16 := by
  show (w.extractLsb' 8 4).toNat = _
  simp only [BitVec.extractLsb'_toNat, Nat.shiftRight_eq_div_pow]

theorem val_yOf (w : Word) : (yOf w).val = w.toNat / 16 % 16 := by
  show (w.extractLsb' 4 4).toNat = _
  simp only [BitVec.extractLsb'_toNat, Nat.shiftRight_eq_div_pow]

theorem toNat_nOf (w : Word) : (nOf w).toNat = w.toNat % 16 := by
  simp only [nOf, BitVec.extractLsb'_toNat, Nat.shiftRight_eq_div_pow]; omega

theorem toNat_nnOf (w : Word) : (nnOf w).toNat = w.toNat % 256 := by
  simp only [nnOf, BitVec.extractLsb'_toNat, Nat.shiftRight_eq_div_pow]; omega

theorem toNat_nnnOf (w : Word) : (nnnOf w).toNat = w.toNat % 4096 := by
  simp only [nnnOf, BitVec.extractLsb'_toNat, Nat.shiftRight_eq_div_pow]; omega

/-- The two bytes of a word, put together again, are the word. -/
theorem word_bytes (w : Word) : wordOfBytes (w.extractLsb' 8 8) (w.extractLsb' 0 8) = w := by
  apply BitVec.eq_of_toNat_eq
  have := w.isLt
  simp only [wordOfBytes, BitVec.toNat_append]
  rw [← Nat.shiftLeft_add_eq_or_of_lt (BitVec.isLt _)]
  simp only [BitVec.extractLsb'_toNat, Nat.shiftRight_eq_div_pow, Nat.shiftLeft_eq]
  omega

/-! ### The fields of an encoded word -/

theorem opOf_encNNN (op : Nibble) (nnn : Addr) : opOf (encNNN op nnn) = op := by
  apply BitVec.eq_of_toNat_eq
  have := nnn.isLt
  rw [toNat_opOf, toNat_encNNN]
  omega

theorem nnnOf_encNNN (op : Nibble) (nnn : Addr) : nnnOf (encNNN op nnn) = nnn := by
  apply BitVec.eq_of_toNat_eq
  have := nnn.isLt
  rw [toNat_nnnOf, toNat_encNNN]
  omega

theorem opOf_encXNN (op : Nibble) (x : RegIdx) (nn : Byte) : opOf (encXNN op x nn) = op := by
  apply BitVec.eq_of_toNat_eq
  have := nn.isLt
  rw [toNat_opOf, toNat_encXNN]
  omega

theorem xOf_encXNN (op : Nibble) (x : RegIdx) (nn : Byte) : xOf (encXNN op x nn) = x := by
  apply Fin.ext
  have := nn.isLt
  rw [val_xOf, toNat_encXNN]
  omega

theorem nnOf_encXNN (op : Nibble) (x : RegIdx) (nn : Byte) : nnOf (encXNN op x nn) = nn := by
  apply BitVec.eq_of_toNat_eq
  have := nn.isLt
  rw [toNat_nnOf, toNat_encXNN]
  omega

theorem opOf_encXYN (op : Nibble) (x y : RegIdx) (n : Nibble) : opOf (encXYN op x y n) = op := by
  apply BitVec.eq_of_toNat_eq
  have := n.isLt
  rw [toNat_opOf, toNat_encXYN]
  omega

theorem xOf_encXYN (op : Nibble) (x y : RegIdx) (n : Nibble) : xOf (encXYN op x y n) = x := by
  apply Fin.ext
  have := n.isLt
  rw [val_xOf, toNat_encXYN]
  omega

theorem yOf_encXYN (op : Nibble) (x y : RegIdx) (n : Nibble) : yOf (encXYN op x y n) = y := by
  apply Fin.ext
  have := n.isLt
  rw [val_yOf, toNat_encXYN]
  omega

theorem nOf_encXYN (op : Nibble) (x y : RegIdx) (n : Nibble) : nOf (encXYN op x y n) = n := by
  apply BitVec.eq_of_toNat_eq
  have := n.isLt
  rw [toNat_nOf, toNat_encXYN]
  omega

end Sys2Proof
end

