-- ==== Sys2Proof/Laws/State.lean ====
section
/-! SUPPORT. One lemma per field per update of the state, and the reads of registers and keys after an update. -/

namespace Sys2Proof.Machine

/-! ### `State.setReg` -/

@[simp] theorem State.setReg_v (s : State) (x : RegIdx) (b : Byte) : (s.setReg x b).v = s.v.set x b := rfl
@[simp] theorem State.setReg_index (s : State) (x : RegIdx) (b : Byte) : (s.setReg x b).index = s.index := rfl
@[simp] theorem State.setReg_pc (s : State) (x : RegIdx) (b : Byte) : (s.setReg x b).pc = s.pc := rfl
@[simp] theorem State.setReg_sp (s : State) (x : RegIdx) (b : Byte) : (s.setReg x b).sp = s.sp := rfl
@[simp] theorem State.setReg_stack (s : State) (x : RegIdx) (b : Byte) : (s.setReg x b).stack = s.stack := rfl
@[simp] theorem State.setReg_delay (s : State) (x : RegIdx) (b : Byte) : (s.setReg x b).delay = s.delay := rfl
@[simp] theorem State.setReg_sound (s : State) (x : RegIdx) (b : Byte) : (s.setReg x b).sound = s.sound := rfl
@[simp] theorem State.setReg_keys (s : State) (x : RegIdx) (b : Byte) : (s.setReg x b).keys = s.keys := rfl
@[simp] theorem State.setReg_fb (s : State) (x : RegIdx) (b : Byte) : (s.setReg x b).fb = s.fb := rfl
@[simp] theorem State.setReg_mem (s : State) (x : RegIdx) (b : Byte) : (s.setReg x b).mem = s.mem := rfl
@[simp] theorem State.setReg_fault (s : State) (x : RegIdx) (b : Byte) : (s.setReg x b).fault = s.fault := rfl
@[simp] theorem State.setReg_diagnostics (s : State) (x : RegIdx) (b : Byte) : (s.setReg x b).diagnostics = s.diagnostics := rfl
@[simp] theorem State.setReg_draws (s : State) (x : RegIdx) (b : Byte) : (s.setReg x b).draws = s.draws := rfl

/-! ### `State.setFlag` -/

@[simp] theorem State.setFlag_v (s : State) (c : Bool) : (s.setFlag c).v = s.v.set flagReg (flagByte c) := rfl
@[simp] theorem State.setFlag_index (s : State) (c : Bool) : (s.setFlag c).index = s.index := rfl
@[simp] theorem State.setFlag_pc (s : State) (c : Bool) : (s.setFlag c).pc = s.pc := rfl
@[simp] theorem State.setFlag_sp (s : State) (c : Bool) : (s.setFlag c).sp = s.sp := rfl
@[simp] theorem State.setFlag_stack (s : State) (c : Bool) : (s.setFlag c).stack = s.stack := rfl
@[simp] theorem State.setFlag_delay (s : State) (c : Bool) : (s.setFlag c).delay = s.delay := rfl
@[simp] theorem State.setFlag_sound (s : State) (c : Bool) : (s.setFlag c).sound = s.sound := rfl
@[simp] theorem State.setFlag_keys (s : State) (c : Bool) : (s.setFlag c).keys = s.keys := rfl
@[simp] theorem State.setFlag_fb (s : State) (c : Bool) : (s.setFlag c).fb = s.fb := rfl
@[simp] theorem State.setFlag_mem (s : State) (c : Bool) : (s.setFlag c).mem = s.mem := rfl
@[simp] theorem State.setFlag_fault (s : State) (c : Bool) : (s.setFlag c).fault = s.fault := rfl
@[simp] theorem State.setFlag_diagnostics (s : State) (c : Bool) : (s.setFlag c).diagnostics = s.diagnostics := rfl
@[simp] theorem State.setFlag_draws (s : State) (c : Bool) : (s.setFlag c).draws = s.draws := rfl

/-! ### `State.setIndex` -/

@[simp] theorem State.setIndex_v (s : State) (w : Word) : (s.setIndex w).v = s.v := rfl
@[simp] theorem State.setIndex_index (s : State) (w : Word) : (s.setIndex w).index = w := rfl
@[simp] theorem State.setIndex_pc (s : State) (w : Word) : (s.setIndex w).pc = s.pc := rfl
@[simp] theorem State.setIndex_sp (s : State) (w : Word) : (s.setIndex w).sp = s.sp := rfl
@[simp] theorem State.setIndex_stack (s : State) (w : Word) : (s.setIndex w).stack = s.stack := rfl
@[simp] theorem State.setIndex_delay (s : State) (w : Word) : (s.setIndex w).delay = s.delay := rfl
@[simp] theorem State.setIndex_sound (s : State) (w : Word) : (s.setIndex w).sound = s.sound := rfl
@[simp] theorem State.setIndex_keys (s : State) (w : Word) : (s.setIndex w).keys = s.keys := rfl
@[simp] theorem State.setIndex_fb (s : State) (w : Word) : (s.setIndex w).fb = s.fb := rfl
@[simp] theorem State.setIndex_mem (s : State) (w : Word) : (s.setIndex w).mem = s.mem := rfl
@[simp] theorem State.setIndex_fault (s : State) (w : Word) : (s.setIndex w).fault = s.fault := rfl
@[simp] theorem State.setIndex_diagnostics (s : State) (w : Word) : (s.setIndex w).diagnostics = s.diagnostics := rfl
@[simp] theorem State.setIndex_draws (s : State) (w : Word) : (s.setIndex w).draws = s.draws := rfl

/-! ### `State.setPc` -/

@[simp] theorem State.setPc_v (s : State) (w : Word) : (s.setPc w).v = s.v := rfl
@[simp] theorem State.setPc_index (s : State) (w : Word) : (s.setPc w).index = s.index := rfl
@[simp] theorem State.setPc_pc (s : State) (w : Word) : (s.setPc w).pc = w := rfl
@[simp] theorem State.setPc_sp (s : State) (w : Word) : (s.setPc w).sp = s.sp := rfl
@[simp] theorem State.setPc_stack (s : State) (w : Word) : (s.setPc w).stack = s.stack := rfl
@[simp] theorem State.setPc_delay (s : State) (w : Word) : (s.setPc w).delay = s.delay := rfl
@[simp] theorem State.setPc_sound (s : State) (w : Word) : (s.setPc w).sound = s.sound := rfl
@[simp] theorem State.setPc_keys (s : State) (w : Word) : (s.setPc w).keys = s.keys := rfl
@[simp] theorem State.setPc_fb (s : State) (w : Word) : (s.setPc w).fb = s.fb := rfl
@[simp] theorem State.setPc_mem (s : State) (w : Word) : (s.setPc w).mem = s.mem := rfl
@[simp] theorem State.setPc_fault (s : State) (w : Word) : (s.setPc w).fault = s.fault := rfl
@[simp] theorem State.setPc_diagnostics (s : State) (w : Word) : (s.setPc w).diagnostics = s.diagnostics := rfl
@[simp] theorem State.setPc_draws (s : State) (w : Word) : (s.setPc w).draws = s.draws := rfl

/-! ### `State.setDelay` -/

@[simp] theorem State.setDelay_v (s : State) (b : Byte) : (s.setDelay b).v = s.v := rfl
@[simp] theorem State.setDelay_index (s : State) (b : Byte) : (s.setDelay b).index = s.index := rfl
@[simp] theorem State.setDelay_pc (s : State) (b : Byte) : (s.setDelay b).pc = s.pc := rfl
@[simp] theorem State.setDelay_sp (s : State) (b : Byte) : (s.setDelay b).sp = s.sp := rfl
@[simp] theorem State.setDelay_stack (s : State) (b : Byte) : (s.setDelay b).stack = s.stack := rfl
@[simp] theorem State.setDelay_delay (s : State) (b : Byte) : (s.setDelay b).delay = b := rfl
@[simp] theorem State.setDelay_sound (s : State) (b : Byte) : (s.setDelay b).sound = s.sound := rfl
@[simp] theorem State.setDelay_keys (s : State) (b : Byte) : (s.setDelay b).keys = s.keys := rfl
@[simp] theorem State.setDelay_fb (s : State) (b : Byte) : (s.setDelay b).fb = s.fb := rfl
@[simp] theorem State.setDelay_mem (s : State) (b : Byte) : (s.setDelay b).mem = s.mem := rfl
@[simp] theorem State.setDelay_fault (s : State) (b : Byte) : (s.setDelay b).fault = s.fault := rfl
@[simp] theorem State.setDelay_diagnostics (s : State) (b : Byte) : (s.setDelay b).diagnostics = s.diagnostics := rfl
@[simp] theorem State.setDelay_draws (s : State) (b : Byte) : (s.setDelay b).draws = s.draws := rfl

/-! ### `State.setSound` -/

@[simp] theorem State.setSound_v (s : State) (b : Byte) : (s.setSound b).v = s.v := rfl
@[simp] theorem State.setSound_index (s : State) (b : Byte) : (s.setSound b).index = s.index := rfl
@[simp] theorem State.setSound_pc (s : State) (b : Byte) : (s.setSound b).pc = s.pc := rfl
@[simp] theorem State.setSound_sp (s : State) (b : Byte) : (s.setSound b).sp = s.sp := rfl
@[simp] theorem State.setSound_stack (s : State) (b : Byte) : (s.setSound b).stack = s.stack := rfl
@[simp] theorem State.setSound_delay (s : State) (b : Byte) : (s.setSound b).delay = s.delay := rfl
@[simp] theorem State.setSound_sound (s : State) (b : Byte) : (s.setSound b).sound = b := rfl
@[simp] theorem State.setSound_keys (s : State) (b : Byte) : (s.setSound b).keys = s.keys := rfl
@[simp] theorem State.setSound_fb (s : State) (b : Byte) : (s.setSound b).fb = s.fb := rfl
@[simp] theorem State.setSound_mem (s : State) (b : Byte) : (s.setSound b).mem = s.mem := rfl
@[simp] theorem State.setSound_fault (s : State) (b : Byte) : (s.setSound b).fault = s.fault := rfl
@[simp] theorem State.setSound_diagnostics (s : State) (b : Byte) : (s.setSound b).diagnostics = s.diagnostics := rfl
@[simp] theorem State.setSound_draws (s : State) (b : Byte) : (s.setSound b).draws = s.draws := rfl

/-! ### `State.diag` -/

@[simp] theorem State.diag_v (s : State) (a w : Word) : (s.diag a w).v = s.v := rfl
@[simp] theorem State.diag_index (s : State) (a w : Word) : (s.diag a w).index = s.index := rfl
@[simp] theorem State.diag_pc (s : State) (a w : Word) : (s.diag a w).pc = s.pc := rfl
@[simp] theorem State.diag_sp (s : State) (a w : Word) : (s.diag a w).sp = s.sp := rfl
@[simp] theorem State.diag_stack (s : State) (a w : Word) : (s.diag a w).stack = s.stack := rfl
@[simp] theorem State.diag_delay (s : State) (a w : Word) : (s.diag a w).delay = s.delay := rfl
@[simp] theorem State.diag_sound (s : State) (a w : Word) : (s.diag a w).sound = s.sound := rfl
@[simp] theorem State.diag_keys (s : State) (a w : Word) : (s.diag a w).keys = s.keys := rfl
@[simp] theorem State.diag_fb (s : State) (a w : Word) : (s.diag a w).fb = s.fb := rfl
@[simp] theorem State.diag_mem (s : State) (a w : Word) : (s.diag a w).mem = s.mem := rfl
@[simp] theorem State.diag_fault (s : State) (a w : Word) : (s.diag a w).fault = s.fault := rfl
@[simp] theorem State.diag_diagnostics (s : State) (a w : Word) : (s.diag a w).diagnostics = ⟨a, w⟩ :: s.diagnostics := rfl
@[simp] theorem State.diag_draws (s : State) (a w : Word) : (s.diag a w).draws = s.draws := rfl

/-! ### `State.advance` -/

@[simp] theorem State.advance_v (s : State) : s.advance.v = s.v := rfl
@[simp] theorem State.advance_index (s : State) : s.advance.index = s.index := rfl
@[simp] theorem State.advance_pc (s : State) : s.advance.pc = s.pc + 2 := rfl
@[simp] theorem State.advance_sp (s : State) : s.advance.sp = s.sp := rfl
@[simp] theorem State.advance_stack (s : State) : s.advance.stack = s.stack := rfl
@[simp] theorem State.advance_delay (s : State) : s.advance.delay = s.delay := rfl
@[simp] theorem State.advance_sound (s : State) : s.advance.sound = s.sound := rfl
@[simp] theorem State.advance_keys (s : State) : s.advance.keys = s.keys := rfl
@[simp] theorem State.advance_fb (s : State) : s.advance.fb = s.fb := rfl
@[simp] theorem State.advance_mem (s : State) : s.advance.mem = s.mem := rfl
@[simp] theorem State.advance_fault (s : State) : s.advance.fault = s.fault := rfl
@[simp] theorem State.advance_diagnostics (s : State) : s.advance.diagnostics = s.diagnostics := rfl
@[simp] theorem State.advance_draws (s : State) : s.advance.draws = s.draws := rfl

/-! ### `State.tick` -/

@[simp] theorem State.tick_v (s : State) : s.tick.v = s.v := rfl
@[simp] theorem State.tick_index (s : State) : s.tick.index = s.index := rfl
@[simp] theorem State.tick_pc (s : State) : s.tick.pc = s.pc := rfl
@[simp] theorem State.tick_sp (s : State) : s.tick.sp = s.sp := rfl
@[simp] theorem State.tick_stack (s : State) : s.tick.stack = s.stack := rfl
@[simp] theorem State.tick_delay (s : State) : s.tick.delay = countDown s.delay := rfl
@[simp] theorem State.tick_sound (s : State) : s.tick.sound = countDown s.sound := rfl
@[simp] theorem State.tick_keys (s : State) : s.tick.keys = s.keys := rfl
@[simp] theorem State.tick_fb (s : State) : s.tick.fb = s.fb := rfl
@[simp] theorem State.tick_mem (s : State) : s.tick.mem = s.mem := rfl
@[simp] theorem State.tick_fault (s : State) : s.tick.fault = s.fault := rfl
@[simp] theorem State.tick_diagnostics (s : State) : s.tick.diagnostics = s.diagnostics := rfl
@[simp] theorem State.tick_draws (s : State) : s.tick.draws = s.draws := rfl

/-! ### `State.setKey` -/

@[simp] theorem State.setKey_v (s : State) (k : KeyIdx) (d : Bool) : (s.setKey k d).v = s.v := rfl
@[simp] theorem State.setKey_index (s : State) (k : KeyIdx) (d : Bool) : (s.setKey k d).index = s.index := rfl
@[simp] theorem State.setKey_pc (s : State) (k : KeyIdx) (d : Bool) : (s.setKey k d).pc = s.pc := rfl
@[simp] theorem State.setKey_sp (s : State) (k : KeyIdx) (d : Bool) : (s.setKey k d).sp = s.sp := rfl
@[simp] theorem State.setKey_stack (s : State) (k : KeyIdx) (d : Bool) : (s.setKey k d).stack = s.stack := rfl
@[simp] theorem State.setKey_delay (s : State) (k : KeyIdx) (d : Bool) : (s.setKey k d).delay = s.delay := rfl
@[simp] theorem State.setKey_sound (s : State) (k : KeyIdx) (d : Bool) : (s.setKey k d).sound = s.sound := rfl
@[simp] theorem State.setKey_keys (s : State) (k : KeyIdx) (d : Bool) : (s.setKey k d).keys = s.keys.set k d := rfl
@[simp] theorem State.setKey_fb (s : State) (k : KeyIdx) (d : Bool) : (s.setKey k d).fb = s.fb := rfl
@[simp] theorem State.setKey_mem (s : State) (k : KeyIdx) (d : Bool) : (s.setKey k d).mem = s.mem := rfl
@[simp] theorem State.setKey_fault (s : State) (k : KeyIdx) (d : Bool) : (s.setKey k d).fault = s.fault := rfl
@[simp] theorem State.setKey_diagnostics (s : State) (k : KeyIdx) (d : Bool) : (s.setKey k d).diagnostics = s.diagnostics := rfl
@[simp] theorem State.setKey_draws (s : State) (k : KeyIdx) (d : Bool) : (s.setKey k d).draws = s.draws := rfl

/-! ### Reads of registers and keys -/

@[simp] theorem State.reg_setReg (s : State) (x k : RegIdx) (b : Byte) :
    (s.setReg x b).reg k = if k = x then b else s.reg k := by
  unfold State.reg State.setReg
  simp only [Fin.getElem_fin, Vector.getElem_set, Fin.ext_iff, eq_comm]

@[simp] theorem State.reg_setFlag (s : State) (k : RegIdx) (c : Bool) :
    (s.setFlag c).reg k = if k = flagReg then flagByte c else s.reg k :=
  State.reg_setReg s flagReg k (flagByte c)

@[simp] theorem State.key_setKey (s : State) (k j : KeyIdx) (d : Bool) :
    (s.setKey k d).key j = if j = k then d else s.key j := by
  unfold State.key State.setKey
  simp only [Fin.getElem_fin, Vector.getElem_set, Fin.ext_iff, eq_comm]

@[simp] theorem State.reg_setIndex (s : State) (w : Word) (k : RegIdx) : (s.setIndex w).reg k = s.reg k := rfl
@[simp] theorem State.reg_setPc (s : State) (w : Word) (k : RegIdx) : (s.setPc w).reg k = s.reg k := rfl
@[simp] theorem State.reg_setDelay (s : State) (b : Byte) (k : RegIdx) : (s.setDelay b).reg k = s.reg k := rfl
@[simp] theorem State.reg_setSound (s : State) (b : Byte) (k : RegIdx) : (s.setSound b).reg k = s.reg k := rfl
@[simp] theorem State.reg_diag (s : State) (a w : Word) (k : RegIdx) : (s.diag a w).reg k = s.reg k := rfl
@[simp] theorem State.reg_advance (s : State) (k : RegIdx) : s.advance.reg k = s.reg k := rfl
@[simp] theorem State.reg_tick (s : State) (k : RegIdx) : s.tick.reg k = s.reg k := rfl
@[simp] theorem State.reg_setKey (s : State) (j : KeyIdx) (d : Bool) (k : RegIdx) : (s.setKey j d).reg k = s.reg k := rfl

end Sys2Proof.Machine
end

