-- ==== Sys2Proof/Laws/Memory.lean ====
section
/-! SUPPORT. Memory: a read after a write, the canonical form kept by every memory operation, and what reading and
writing a block can do. -/

namespace Sys2Proof.Machine

/-! ### The canonical form -/

theorem Memory.wf_cons {a : Nat} {b : Byte} {m : Memory} :
    Memory.wf ((a, b) :: m) = true ↔
      a < Config.memSize ∧ b ≠ Memory.unlisted a ∧ (∀ c ∈ m, a < c.1) ∧ Memory.wf m = true := by
  simp [Memory.wf, and_assoc]

/-- An address below every listed one reads as the reset content. -/
theorem Memory.read_of_lt {m : Memory} {a : Nat} (h : ∀ c ∈ m, a < c.1) : Memory.read m a = Memory.unlisted a := by
  induction m with
  | nil => rfl
  | cons c m ih =>
    have hc : a < c.1 := h c (by simp)
    rw [Memory.read, if_neg (by omega)]
    exact ih fun d hd => h d (by simp [hd])

/-- A write lists nothing but what was listed and the byte written. -/
theorem Memory.mem_of_mem_write {m : Memory} {a : Nat} {b : Byte} {c : Host.Cell} (h : c ∈ Memory.write m a b) :
    c ∈ m ∨ c = (a, b) := by
  induction m with
  | nil => unfold Memory.write at h; split at h <;> simp_all
  | cons e m ih =>
    unfold Memory.write at h
    split at h
    · split at h
      · exact .inl h
      · exact (List.mem_cons.mp h).symm
    · split at h
      · split at h
        · exact .inl (List.mem_cons_of_mem _ h)
        · exact (List.mem_cons.mp h).symm.imp_left (List.mem_cons_of_mem _)
      · rcases List.mem_cons.mp h with rfl | h
        · exact .inl List.mem_cons_self
        · exact (ih h).imp_left (List.mem_cons_of_mem _)

/-- A write to an existing address keeps the canonical form. -/
theorem Memory.wf_write {m : Memory} {a : Nat} (b : Byte) (ha : a < Config.memSize) (h : Memory.wf m = true) :
    Memory.wf (Memory.write m a b) = true := by
  induction m with
  | nil =>
    unfold Memory.write
    split
    · rfl
    · rw [Memory.wf_cons]; simp_all [Memory.wf]
  | cons e m ih =>
    obtain ⟨k, c⟩ := e
    have h' := Memory.wf_cons.mp h
    unfold Memory.write
    split
    · split
      · exact h
      · rw [Memory.wf_cons]
        refine ⟨ha, by assumption, ?_, h⟩
        intro d hd
        rcases List.mem_cons.mp hd with rfl | hd
        · assumption
        · have := h'.2.2.1 d hd; omega
    · split
      · split
        · exact h'.2.2.2
        · subst_vars
          rw [Memory.wf_cons]
          exact ⟨ha, by assumption, h'.2.2.1, h'.2.2.2⟩
      · rw [Memory.wf_cons]
        refine ⟨h'.1, h'.2.1, fun d hd => ?_, ih h'.2.2.2⟩
        rcases Memory.mem_of_mem_write hd with hd | rfl
        · exact h'.2.2.1 d hd
        · simp only; omega

/-! ### Read after write -/

/-- A write leaves every other address as it was, canonical or not. -/
theorem Memory.read_write_other {m : Memory} {a k : Nat} (b : Byte) (hk : k ≠ a) :
    Memory.read (Memory.write m a b) k = Memory.read m k := by
  induction m with
  | nil => unfold Memory.write; split <;> simp [Memory.read, hk]
  | cons e m ih =>
    unfold Memory.write
    split <;> [split; (split <;> [split; skip])] <;>
      simp_all [Memory.read]

/-- A read of the address written gives the byte written. -/
theorem Memory.read_write_same {m : Memory} {a : Nat} {b : Byte} (h : Memory.wf m = true) :
    Memory.read (Memory.write m a b) a = b := by
  induction m with
  | nil => unfold Memory.write; split <;> simp_all [Memory.read]
  | cons e m ih =>
    obtain ⟨k, c⟩ := e
    have h' := Memory.wf_cons.mp h
    unfold Memory.write
    split
    · split
      · subst_vars
        refine Memory.read_of_lt fun d hd => ?_
        rcases List.mem_cons.mp hd with rfl | hd
        · assumption
        · have := h'.2.2.1 d hd; omega
      · simp [Memory.read]
    · split
      · split
        · subst_vars; exact Memory.read_of_lt h'.2.2.1
        · simp [Memory.read]
      · rw [Memory.read, if_neg (by assumption)]
        exact ih h'.2.2.2

/-! ### Blocks -/

/-- Reading a block that exists: its bytes, from the lowest address up. -/
theorem readBytes_of_le {s : State} {a n : Nat} (h : a + n ≤ Config.memSize) :
    readBytes s a n = .ok ((List.range n).map fun k => Memory.read s.mem (a + k)) := by
  induction n generalizing a with
  | zero => rfl
  | succ n ih =>
    simp only [Config.memSize] at h ih
    have ha : a ≤ Config.maxAddr := by simp only [Config.maxAddr]; omega
    rw [readBytes, memRead, if_pos ha]
    simp only [ih (a := a + 1) (by omega)]
    simp only [List.range_succ_eq_map, List.map_cons, List.map_map, Nat.add_zero]
    congr 2
    apply List.map_congr_left
    intro k _
    simp only [Function.comp]
    congr 1
    omega

/-- The memory after bytes are written from an address up. -/
theorem writeBytes_of_le {s : State} {a : Nat} {bs : List Byte} (h : a + bs.length ≤ Config.memSize) :
    writeBytes s a bs = .ok { s with mem := Memory.copy s.mem a bs } := by
  induction bs generalizing s a with
  | nil => rfl
  | cons b bs ih =>
    simp only [Config.memSize, List.length_cons] at h ih
    have ha : a ≤ Config.maxAddr := by simp only [Config.maxAddr]; omega
    rw [writeBytes, memWrite, if_pos ha]
    simp only [ih (s := { s with mem := Memory.write s.mem a b }) (a := a + 1) (by omega), Memory.copy]

/-- A copy keeps the canonical form. -/
theorem Memory.wf_copy {m : Memory} {a : Nat} {bs : List Byte} (ha : a + bs.length ≤ Config.memSize)
    (h : Memory.wf m = true) : Memory.wf (Memory.copy m a bs) = true := by
  induction bs generalizing m a with
  | nil => exact h
  | cons b bs ih =>
    simp only [Config.memSize, List.length_cons] at ha ih
    exact ih (by omega) (Memory.wf_write b (by simp only [Config.memSize]; omega) h)

/-- A copy leaves every address outside its bytes as it was. -/
theorem Memory.read_copy_outside {m : Memory} {a k : Nat} {bs : List Byte} (hk : k < a ∨ a + bs.length ≤ k) :
    Memory.read (Memory.copy m a bs) k = Memory.read m k := by
  induction bs generalizing m a with
  | nil => rfl
  | cons b bs ih =>
    simp only [List.length_cons] at hk
    rw [Memory.copy, ih (by omega), Memory.read_write_other b (by omega)]

/-- A copy puts its bytes at ascending addresses. -/
theorem Memory.read_copy_inside {m : Memory} {a k : Nat} {bs : List Byte} (ha : a + bs.length ≤ Config.memSize)
    (h : Memory.wf m = true) (hk : k < bs.length) : Memory.read (Memory.copy m a bs) (a + k) = bs[k] := by
  induction bs generalizing m a k with
  | nil => simp at hk
  | cons b bs ih =>
    simp only [Config.memSize, List.length_cons] at ha hk ih
    have hw : Memory.wf (Memory.write m a b) = true := Memory.wf_write b (by simp only [Config.memSize]; omega) h
    cases k with
    | zero =>
      rw [Memory.copy, Nat.add_zero, Memory.read_copy_outside (by omega)]
      exact Memory.read_write_same h
    | succ k =>
      have := ih (m := Memory.write m a b) (a := a + 1) (k := k) (by omega) hw (by omega)
      rw [Memory.copy, List.getElem_cons_succ, ← this]
      congr 1
      omega

/-- The reset memory is in canonical form. -/
theorem State.reset_mem_wf : Memory.wf State.reset.mem = true := rfl

end Sys2Proof.Machine
end

