-- ==== Sys2Proof/Laws/Ops.lean ====
section
/-! SUPPORT. One lemma per shared operation, saying everything it can do; the meanings' proofs cite these. -/

namespace Sys2Proof.Machine

/-! ### Faults -/

/-- A fault raised while none is latched: the record is latched and nothing else changes. -/
theorem raise_running {s : State} (h : s.fault = none) (code : FaultCode) (a : Word) (w : Option Word) (info : Nat) :
    raise code a w info s = { s with fault := some ⟨code, a, w, info⟩ } := by
  unfold raise; rw [h]

/-- A latched fault is never replaced. -/
theorem raise_latched {s : State} {r : FaultRecord} (h : s.fault = some r) (code : FaultCode) (a : Word) (w : Option Word)
    (info : Nat) : raise code a w info s = s := by
  unfold raise; rw [h]

/-- Raising changes at most `FAULT`. -/
theorem raise_eq (s : State) (code : FaultCode) (a : Word) (w : Option Word) (info : Nat) :
    raise code a w info s = { s with fault := (raise code a w info s).fault } := by
  unfold raise; split <;> rfl

theorem raiseIn_running {s : State} (h : s.fault = none) (i : Instr) (code : FaultCode) (info : Nat) :
    raiseIn i code info s = .next { s with fault := some ⟨code, s.pc - 2, some (encode i), info⟩ } := by
  unfold raiseIn; rw [raise_running h]

/-! ### The stack -/

theorem pushAddr_of_lt {w : Word} {s : State} (h : s.sp.val < Config.stackDepth) :
    pushAddr w s =
      some { s with stack := s.stack.set s.sp.val w, sp := ⟨s.sp.val + 1, Nat.succ_lt_succ h⟩ } := by
  unfold pushAddr; rw [dif_pos h]

theorem pushAddr_full {w : Word} {s : State} (h : s.sp.val = Config.stackDepth) : pushAddr w s = none := by
  unfold pushAddr; rw [dif_neg (by omega)]

theorem popAddr_of_pos {s : State} (h : 0 < s.sp.val) (hk : s.sp.val - 1 < Config.stackDepth) :
    popAddr s = some (s.stack[s.sp.val - 1], { s with sp := ⟨s.sp.val - 1, Nat.lt_succ_of_lt hk⟩ }) := by
  unfold popAddr; rw [dif_pos h]

theorem popAddr_empty {s : State} (h : s.sp.val = 0) : popAddr s = none := by
  unfold popAddr; rw [dif_neg (by omega)]

/-! ### Operand checks -/

/-- The access does not pass the end of memory, as R59 computes it. -/
theorem withRange_in {i : Instr} {n : Nat} {s : State} {e : Result} (h : s.base + n ≤ Config.memSize ∨ n = 0) :
    withRange i n s e = e := by
  unfold withRange; rw [if_neg]; simp only [Config.memSize, Config.maxAddr] at *; omega

theorem withRange_out {i : Instr} {n : Nat} {s : State} {e : Result} (hn : 1 ≤ n) (h : Config.maxAddr < s.base + n - 1) :
    withRange i n s e = raiseIn i .memOutOfRange (s.base + n - 1) s := by
  unfold withRange; rw [if_pos ⟨hn, h⟩]

theorem withKey_in {i : Instr} {k : Byte} {s : State} {e : Bool → Result} (h : k.toNat < 16) :
    withKey i k s e = e (s.key ⟨k.toNat, h⟩) := by
  unfold withKey; rw [dif_pos h]

theorem withKey_out {i : Instr} {k : Byte} {s : State} {e : Bool → Result} (h : ¬ k.toNat < 16) :
    withKey i k s e = raiseIn i .keyIndexOutOfRange k.toNat s := by
  unfold withKey; rw [dif_neg h]

theorem skipIf_eq (s : State) (c : Bool) : s.skipIf c = s.setPc (if c then s.pc + 2 else s.pc) := by
  unfold State.skipIf; split <;> rfl

/-! ### Results and flags -/

theorem addBytes_toNat (p q : Byte) : (addBytes p q).toNat = (p.toNat + q.toNat) % 256 := by
  simp [addBytes]

theorem subBytes_toNat (p q : Byte) : ((subBytes p q).toNat : Int) = ((p.toNat : Int) - q.toNat) % 256 := by
  rw [subBytes, BitVec.toNat_ofInt]
  omega

theorem shiftRightOne_toNat (p : Byte) : (shiftRightOne p).toNat = p.toNat / 2 := by
  have := p.isLt
  simp only [shiftRightOne, BitVec.toNat_ofNat]
  omega

theorem shiftLeftOne_toNat (p : Byte) : (shiftLeftOne p).toNat = 2 * p.toNat % 256 := by
  simp [shiftLeftOne]

theorem droppedRight_eq (p : Byte) : droppedRight p = decide (p.toNat % 2 = 1) := by
  simp [droppedRight, BitVec.getLsbD, Nat.testBit_zero]

theorem droppedLeft_eq (p : Byte) : droppedLeft p = decide (p.toNat / 128 = 1) := by
  have := p.isLt
  simp only [droppedLeft, BitVec.getLsbD, Nat.testBit_eq_decide_div_mod_eq]
  congr 1
  simp only [eq_iff_iff]
  omega

theorem flagByte_toNat (c : Bool) : (flagByte c).toNat = if c then 1 else 0 := by
  cases c <;> rfl

/-- The registers after a flag-writing instruction: the flag wins in `V[15]` (10_state.md R22). -/
@[simp] theorem State.reg_setResultThenFlag (s : State) (x k : RegIdx) (r : Byte) (c : Bool) :
    (s.setResultThenFlag x r c).reg k = if k = flagReg then flagByte c else if k = x then r else s.reg k := by
  simp [State.setResultThenFlag]

theorem State.setResultThenFlag_eq (s : State) (x : RegIdx) (r : Byte) (c : Bool) :
    s.setResultThenFlag x r c = { s with v := (s.setResultThenFlag x r c).v } := rfl

/-! ### Register ranges -/

/-- Writing a range of registers changes nothing but registers. -/
theorem State.setRegsFrom_eq (s : State) (k : Nat) (bs : List Byte) :
    s.setRegsFrom k bs = { s with v := (s.setRegsFrom k bs).v } := by
  induction bs generalizing s k with
  | nil => rfl
  | cons b bs ih =>
    rw [State.setRegsFrom]
    exact ih (s.setReg (Fin.ofNat 16 k) b) (k + 1)

/-- The registers after a range is written from `V[k]` up. -/
theorem State.reg_setRegsFrom (s : State) {k : Nat} {bs : List Byte} (h : k + bs.length ≤ 16) (j : RegIdx) :
    (s.setRegsFrom k bs).reg j = if hj : k ≤ j.val ∧ j.val - k < bs.length then bs[j.val - k]'hj.2 else s.reg j := by
  induction bs generalizing s k with
  | nil => simp [State.setRegsFrom]
  | cons b bs ih =>
    simp only [List.length_cons] at h
    rw [State.setRegsFrom, ih _ (by omega)]
    by_cases h1 : j.val = k
    · have hj : j = Fin.ofNat 16 k := by apply Fin.ext; simp only [Fin.ofNat]; omega
      rw [dif_neg (by omega), dif_pos (by simp only [List.length_cons]; omega), State.reg_setReg, if_pos hj]
      simp [h1]
    · have hj : j ≠ Fin.ofNat 16 k := by
        intro hc; apply h1; rw [hc]; simp only [Fin.ofNat]; omega
      by_cases h2 : k + 1 ≤ j.val ∧ j.val - (k + 1) < bs.length
      · rw [dif_pos h2, dif_pos (by simp only [List.length_cons]; omega)]
        have : j.val - k = (j.val - (k + 1)) + 1 := by omega
        simp only [this, List.getElem_cons_succ]
      · rw [dif_neg h2, dif_neg (by simp only [List.length_cons]; omega), State.reg_setReg, if_neg hj]

theorem State.regsUpTo_length (s : State) (x : RegIdx) : (s.regsUpTo x).length = x.val + 1 := by
  have := x.isLt
  simp only [State.regsUpTo, List.length_take, Vector.length_toList]
  omega

theorem State.regsUpTo_getElem (s : State) (x : RegIdx) {k : Nat} (h : k < (s.regsUpTo x).length) (hk : k < 16) :
    (s.regsUpTo x)[k] = s.reg ⟨k, hk⟩ := by
  simp [State.regsUpTo, State.reg]

theorem bcdDigits_length (b : Byte) : (bcdDigits b).length = 3 := rfl

/-! ### The framebuffer -/

theorem Framebuffer.cell_flip (fb : Framebuffer) (p q : Pixel) :
    Framebuffer.cell (fb.flip p) q = (fb.cell q ^^ decide (q = p)) := by
  obtain ⟨px, py⟩ := p
  obtain ⟨qx, qy⟩ := q
  simp only [Framebuffer.cell, Framebuffer.flip, Fin.getElem_fin, Vector.getElem_set, Prod.mk.injEq, Fin.ext_iff]
  by_cases hy : py.val = qy.val
  · by_cases hx : px.val = qx.val
    · simp [hx, hy]
    · simp [hx, hy, Ne.symm hx]
  · simp [hy, Ne.symm hy]

theorem Framebuffer.cell_clear (p : Pixel) : Framebuffer.clear.cell p = false := by
  simp [Framebuffer.cell, Framebuffer.clear]

/-- Flipping distinct places: a cell changes exactly if it is among them, and the collision is reported exactly if one
of them was set. -/
theorem flipPixels_spec {ps : List Pixel} (hd : ps.Nodup) (fb : Framebuffer) (c : Bool) :
    (∀ q, Framebuffer.cell (flipPixels ps fb c).1 q = (fb.cell q ^^ decide (q ∈ ps))) ∧
      (flipPixels ps fb c).2 = (c || ps.any fb.cell) := by
  induction ps generalizing fb c with
  | nil => simp [flipPixels]
  | cons p ps ih =>
    obtain ⟨hp, hd⟩ := List.nodup_cons.mp hd
    obtain ⟨h1, h2⟩ := ih hd (fb.flip p) (c || fb.cell p)
    refine ⟨fun q => ?_, ?_⟩
    · rw [flipPixels, h1, Framebuffer.cell_flip]
      by_cases hq : q = p
      · subst hq; simp [hp]
      · simp [hq]
    · rw [flipPixels, h2]
      have : ps.any (Framebuffer.cell (fb.flip p)) = ps.any fb.cell := by
        apply Bool.eq_iff_iff.mpr
        simp only [List.any_eq_true]
        constructor <;> rintro ⟨q, hq, h⟩ <;> refine ⟨q, hq, ?_⟩ <;>
          have hne : q ≠ p := fun e => hp (e ▸ hq)
        · simpa [Framebuffer.cell_flip, hne] using h
        · simpa [Framebuffer.cell_flip, hne] using h
      rw [this, List.any_cons, Bool.or_assoc]

/-! ### The keypad -/

/-- The least key found is pressed and every lower one is not. -/
theorem State.leastKey_eq_some {s : State} {k : Nat} :
    s.leastKey = some k ↔ ∃ h : k < 16, s.key ⟨k, h⟩ = true ∧ ∀ j : KeyIdx, j.val < k → s.key j = false := by
  unfold State.leastKey State.key
  rw [List.findIdx?_eq_some_iff_getElem]
  simp only [Vector.length_toList, Vector.getElem_toList, id, Fin.getElem_fin, Bool.not_eq_true]
  constructor
  · rintro ⟨h, h1, h2⟩; exact ⟨h, h1, fun j hj => h2 j.val hj⟩
  · rintro ⟨h, h1, h2⟩; exact ⟨h, h1, fun j hj => h2 ⟨j, by omega⟩ hj⟩

/-- No key is found exactly if none is pressed. -/
theorem State.leastKey_eq_none {s : State} : s.leastKey = none ↔ ∀ k : KeyIdx, s.key k = false := by
  unfold State.leastKey State.key
  rw [List.findIdx?_eq_none_iff]
  simp only [Vector.mem_toList_iff, id, Fin.getElem_fin]
  constructor
  · intro h k; exact h _ (Vector.getElem_mem _)
  · intro h x hx
    obtain ⟨i, hi, rfl⟩ := Vector.getElem_of_mem hx
    exact h ⟨i, hi⟩

end Sys2Proof.Machine
end

