-- ==== Sys2Proof/Laws/Display.lean ====
section
/-! SUPPORT. The places a sprite flips: which they are, and that no place comes twice (44_display.md R151 (e)). -/

namespace Sys2Proof.Machine

/-- A sprite row's places: one for each set bit. -/
theorem mem_rowPixels {x0 y0 row : Nat} {b : Byte} {p : Pixel} :
    p ∈ rowPixels x0 y0 row b ↔ ∃ col, col < 8 ∧ spriteBit b col = true ∧ p = pixelAt x0 y0 row col := by
  simp only [rowPixels, List.mem_map, List.mem_filter, List.mem_range]
  constructor
  · rintro ⟨c, ⟨h1, h2⟩, rfl⟩; exact ⟨c, h1, h2, rfl⟩
  · rintro ⟨c, h1, h2, rfl⟩; exact ⟨c, ⟨h1, h2⟩, rfl⟩

/-- A sprite's places: one for each set bit of each row. -/
theorem mem_spritePixels {x0 y0 row : Nat} {bs : List Byte} {p : Pixel} :
    p ∈ spritePixels x0 y0 row bs ↔
      ∃ r, ∃ h : r < bs.length, ∃ col, col < 8 ∧ spriteBit bs[r] col = true ∧ p = pixelAt x0 y0 (row + r) col := by
  induction bs generalizing row with
  | nil => simp [spritePixels]
  | cons b bs ih =>
    rw [spritePixels, List.mem_append, mem_rowPixels, ih]
    constructor
    · rintro (⟨c, h1, h2, rfl⟩ | ⟨r, hr, c, h1, h2, rfl⟩)
      · exact ⟨0, by simp, c, h1, h2, rfl⟩
      · exact ⟨r + 1, by simpa using hr, c, h1, by simpa using h2, by rw [Nat.add_right_comm, Nat.add_assoc]⟩
    · rintro ⟨r, hr, c, h1, h2, rfl⟩
      cases r with
      | zero => exact .inl ⟨c, h1, by simpa using h2, rfl⟩
      | succ r =>
        refine .inr ⟨r, by simpa using hr, c, h1, by simpa using h2, ?_⟩
        rw [Nat.add_right_comm, Nat.add_assoc]

/-- Pixels of different columns or rows of one sprite have different places. -/
theorem pixelAt_inj {x0 y0 r r' c c' : Nat} (hc : c < 8) (hc' : c' < 8) (hr : r < 32) (hr' : r' < 32)
    (h : pixelAt x0 y0 r c = pixelAt x0 y0 r' c') : r = r' ∧ c = c' := by
  simp only [pixelAt, Prod.mk.injEq, Fin.mk.injEq, Config.fbWidth, Config.fbHeight] at h
  omega

theorem rowPixels_nodup (x0 y0 row : Nat) (b : Byte) (hr : row < 32) : (rowPixels x0 y0 row b).Nodup := by
  refine List.Nodup.map_on (fun c hc c' hc' h => ?_) (List.nodup_range.filter _)
  simp only [List.mem_filter, List.mem_range] at hc hc'
  exact (pixelAt_inj hc.1 hc'.1 hr hr h).2

/-- No place comes twice in a sprite of at most 32 rows. -/
theorem spritePixels_nodup (x0 y0 row : Nat) (bs : List Byte) (h : row + bs.length ≤ 32) :
    (spritePixels x0 y0 row bs).Nodup := by
  induction bs generalizing row with
  | nil => exact List.nodup_nil
  | cons b bs ih =>
    simp only [List.length_cons] at h
    rw [spritePixels]
    refine List.Nodup.append (rowPixels_nodup _ _ _ _ (by omega)) (ih _ (by omega)) ?_
    intro p hp hq
    obtain ⟨c, hc, -, rfl⟩ := mem_rowPixels.mp hp
    obtain ⟨r, hr, c', hc', -, he⟩ := mem_spritePixels.mp hq
    have := (pixelAt_inj hc hc' (by omega) (by omega) he).1
    omega

/-- What drawing rows does: the sprite's places are flipped, `V[15]` tells whether one of them was set. -/
theorem State.drawRows_spec (s : State) (x0 y0 : Nat) {rows : List Byte} (h : rows.length ≤ 32) :
    (∀ q, Framebuffer.cell (s.drawRows x0 y0 rows).fb q = (s.fb.cell q ^^ decide (q ∈ spritePixels x0 y0 0 rows))) ∧
      (s.drawRows x0 y0 rows).reg flagReg = flagByte ((spritePixels x0 y0 0 rows).any s.fb.cell) := by
  have hs := flipPixels_spec (spritePixels_nodup x0 y0 0 rows (by omega)) s.fb false
  refine ⟨hs.1, ?_⟩
  rw [State.drawRows, State.reg_setFlag, if_pos rfl, hs.2, Bool.false_or]

end Sys2Proof.Machine
end

