-- ==== Sys2Proof/Laws/Frame.lean ====
section
/-! SUPPORT. Frames: how `KeepsAllBut` composes, and the frame of each update and shared operation. -/

namespace Sys2Proof

open Machine

/-! ### Composition -/

theorem KeepsAllBut.refl (ch : Part → Prop) (s : State) : KeepsAllBut ch s s := fun p _ => by
  cases p <;> rfl

theorem KeepsAllBut.mono {ch ch' : Part → Prop} {s t : State} (h : KeepsAllBut ch s t) (hc : ∀ p, ch p → ch' p) :
    KeepsAllBut ch' s t := fun p hp => h p fun hp' => hp (hc p hp')

theorem Part.agrees_trans {s t u : State} {p : Part} (h : p.agrees s t) (h' : p.agrees t u) : p.agrees s u := by
  cases p <;> exact Eq.trans h' h

theorem KeepsAllBut.trans {ch : Part → Prop} {s t u : State} (h : KeepsAllBut ch s t) (h' : KeepsAllBut ch t u) :
    KeepsAllBut ch s u := fun p hp => Part.agrees_trans (h p hp) (h' p hp)

/-! ### Updates -/

theorem keeps_setReg (s : State) (x : RegIdx) (b : Byte) : KeepsAllBut (· = .reg x) s (s.setReg x b) := by
  intro p hp
  cases p with
  | reg k =>
    show (s.setReg x b).reg k = s.reg k
    rw [State.reg_setReg, if_neg (fun h => hp (congrArg _ h))]
  | _ => rfl

theorem keeps_setFlag (s : State) (c : Bool) : KeepsAllBut (· = .reg flagReg) s (s.setFlag c) :=
  keeps_setReg s flagReg (flagByte c)

theorem keeps_setResultThenFlag (s : State) (x : RegIdx) (r : Byte) (c : Bool) :
    KeepsAllBut (fun p => p = .reg x ∨ p = .reg flagReg) s (s.setResultThenFlag x r c) :=
  ((keeps_setReg s x r).mono fun _ => .inl).trans ((keeps_setFlag _ c).mono fun _ => .inr)

theorem keeps_setIndex (s : State) (w : Word) : KeepsAllBut (· = .index) s (s.setIndex w) := by
  intro p hp; cases p <;> first | rfl | exact absurd rfl hp

theorem keeps_setPc (s : State) (w : Word) : KeepsAllBut (· = .pc) s (s.setPc w) := by
  intro p hp; cases p <;> first | rfl | exact absurd rfl hp

theorem keeps_skipIf (s : State) (c : Bool) : KeepsAllBut (· = .pc) s (s.skipIf c) := by
  rw [skipIf_eq]; exact keeps_setPc s _

theorem keeps_setDelay (s : State) (b : Byte) : KeepsAllBut (· = .delay) s (s.setDelay b) := by
  intro p hp; cases p <;> first | rfl | exact absurd rfl hp

theorem keeps_setSound (s : State) (b : Byte) : KeepsAllBut (· = .sound) s (s.setSound b) := by
  intro p hp; cases p <;> first | rfl | exact absurd rfl hp

theorem keeps_diag (s : State) (a w : Word) : KeepsAllBut (· = .diagnostics) s (s.diag a w) := by
  intro p hp; cases p <;> first | rfl | exact absurd rfl hp

theorem keeps_raise (s : State) (code : FaultCode) (a : Word) (w : Option Word) (info : Nat) :
    KeepsAllBut (· = .fault) s (raise code a w info s) := by
  intro p hp
  rw [raise_eq]
  cases p <;> first | rfl | exact absurd rfl hp

theorem keeps_takeRandom (s : State) : KeepsAllBut (· = .draws) s s.takeRandom.2 := by
  intro p hp; cases p <;> first | rfl | exact absurd rfl hp

theorem keeps_tick (s : State) : KeepsAllBut (fun p => p = .delay ∨ p = .sound) s s.tick := by
  intro p hp; cases p <;> first | rfl | exact absurd (.inl rfl) hp | exact absurd (.inr rfl) hp

theorem keeps_setKey (s : State) (k : KeyIdx) (d : Bool) : KeepsAllBut (· = .key k) s (s.setKey k d) := by
  intro p hp
  cases p with
  | key j =>
    show (s.setKey k d).key j = s.key j
    rw [State.key_setKey, if_neg (fun h => hp (congrArg _ h))]
  | _ => rfl

/-- Replacing registers only. -/
theorem keeps_regs (s : State) (v : Vector Byte 16) : KeepsAllBut (fun p => ∃ k, p = .reg k) s { s with v := v } := by
  intro p hp; cases p <;> first | rfl | exact absurd ⟨_, rfl⟩ hp

/-- Replacing the framebuffer only. -/
theorem keeps_fb (s : State) (fb : Framebuffer) : KeepsAllBut (fun p => ∃ q, p = .cell q) s { s with fb := fb } := by
  intro p hp; cases p <;> first | rfl | exact absurd ⟨_, rfl⟩ hp

/-- A copy changes only the bytes it covers. -/
theorem keeps_copy (s : State) (a : Nat) (bs : List Byte) :
    KeepsAllBut (fun p => ∃ k, a ≤ k ∧ k < a + bs.length ∧ p = .byte k) s { s with mem := Memory.copy s.mem a bs } := by
  intro p hp
  cases p with
  | byte k =>
    refine Memory.read_copy_outside (a := a) (bs := bs) ?_
    by_contra hc
    exact hp ⟨k, by omega, by omega, rfl⟩
  | _ => rfl

/-- A range of registers written from `V[0]` up changes only those registers. -/
theorem keeps_setRegsFrom (s : State) {bs : List Byte} (h : bs.length ≤ 16) :
    KeepsAllBut (fun p => ∃ k : RegIdx, k.val < bs.length ∧ p = .reg k) s (s.setRegsFrom 0 bs) := by
  intro p hp
  cases p with
  | reg k =>
    show (s.setRegsFrom 0 bs).reg k = s.reg k
    rw [State.reg_setRegsFrom s (by omega), dif_neg]
    rintro ⟨-, hk⟩
    exact hp ⟨k, by omega, rfl⟩
  | _ => rw [State.setRegsFrom_eq]; rfl

end Sys2Proof
end

