-- ==== Sys2Proof/Laws/PerInstr.lean ====
section
/-! SUPPORT. Per-instruction family `EncodedClass`: the operation class of an instruction's word, `w[15:12]`, is the one
of its row of the opcode map (30_encoding.md R76). -/

namespace Sys2Proof.Laws.EncodedClass

/-- The operation class of an instruction. -/
def classOf : Instr → Nibble
  | .clearScreen | .returnSub => 0x0
  | .jump _ => 0x1
  | .call _ => 0x2
  | .skipIfEqImm _ _ => 0x3
  | .skipIfNeImm _ _ => 0x4
  | .skipIfEqReg _ _ => 0x5
  | .loadImm _ _ => 0x6
  | .addImm _ _ => 0x7
  | .move _ _ | .orReg _ _ | .andReg _ _ | .xorReg _ _ | .addReg _ _ | .subReg _ _ | .shiftRight _ _ | .subRegRev _ _
  | .shiftLeft _ _ => 0x8
  | .skipIfNeReg _ _ => 0x9
  | .loadIndex _ => 0xA
  | .jumpOffset _ => 0xB
  | .randomAnd _ _ => 0xC
  | .drawSprite _ _ _ => 0xD
  | .skipIfKeyDown _ | .skipIfKeyUp _ => 0xE
  | .getDelay _ | .waitKey _ | .setDelay _ | .setSound _ | .addIndex _ | .fontAddress _ | .storeBcd _ | .storeRegs _
  | .loadRegs _ => 0xF

def Statement (i : Instr) : Prop := opOf (encode i) = classOf i

theorem clearScreen : Statement .clearScreen := rfl
theorem returnSub : Statement .returnSub := rfl
theorem jump (nnn : Addr) : Statement (.jump nnn) := opOf_encNNN _ nnn
theorem call (nnn : Addr) : Statement (.call nnn) := opOf_encNNN _ nnn
theorem skipIfEqImm (x : RegIdx) (nn : Byte) : Statement (.skipIfEqImm x nn) := opOf_encXNN _ x nn
theorem skipIfNeImm (x : RegIdx) (nn : Byte) : Statement (.skipIfNeImm x nn) := opOf_encXNN _ x nn
theorem skipIfEqReg (x y : RegIdx) : Statement (.skipIfEqReg x y) := opOf_encXYN _ x y _
theorem loadImm (x : RegIdx) (nn : Byte) : Statement (.loadImm x nn) := opOf_encXNN _ x nn
theorem addImm (x : RegIdx) (nn : Byte) : Statement (.addImm x nn) := opOf_encXNN _ x nn
theorem move (x y : RegIdx) : Statement (.move x y) := opOf_encXYN _ x y _
theorem orReg (x y : RegIdx) : Statement (.orReg x y) := opOf_encXYN _ x y _
theorem andReg (x y : RegIdx) : Statement (.andReg x y) := opOf_encXYN _ x y _
theorem xorReg (x y : RegIdx) : Statement (.xorReg x y) := opOf_encXYN _ x y _
theorem addReg (x y : RegIdx) : Statement (.addReg x y) := opOf_encXYN _ x y _
theorem subReg (x y : RegIdx) : Statement (.subReg x y) := opOf_encXYN _ x y _
theorem shiftRight (x y : RegIdx) : Statement (.shiftRight x y) := opOf_encXYN _ x y _
theorem subRegRev (x y : RegIdx) : Statement (.subRegRev x y) := opOf_encXYN _ x y _
theorem shiftLeft (x y : RegIdx) : Statement (.shiftLeft x y) := opOf_encXYN _ x y _
theorem skipIfNeReg (x y : RegIdx) : Statement (.skipIfNeReg x y) := opOf_encXYN _ x y _
theorem loadIndex (nnn : Addr) : Statement (.loadIndex nnn) := opOf_encNNN _ nnn
theorem jumpOffset (nnn : Addr) : Statement (.jumpOffset nnn) := opOf_encNNN _ nnn
theorem randomAnd (x : RegIdx) (nn : Byte) : Statement (.randomAnd x nn) := opOf_encXNN _ x nn
theorem drawSprite (x y : RegIdx) (n : Nibble) : Statement (.drawSprite x y n) := opOf_encXYN _ x y n
theorem skipIfKeyDown (x : RegIdx) : Statement (.skipIfKeyDown x) := opOf_encXNN _ x _
theorem skipIfKeyUp (x : RegIdx) : Statement (.skipIfKeyUp x) := opOf_encXNN _ x _
theorem getDelay (x : RegIdx) : Statement (.getDelay x) := opOf_encXNN _ x _
theorem waitKey (x : RegIdx) : Statement (.waitKey x) := opOf_encXNN _ x _
theorem setDelay (x : RegIdx) : Statement (.setDelay x) := opOf_encXNN _ x _
theorem setSound (x : RegIdx) : Statement (.setSound x) := opOf_encXNN _ x _
theorem addIndex (x : RegIdx) : Statement (.addIndex x) := opOf_encXNN _ x _
theorem fontAddress (x : RegIdx) : Statement (.fontAddress x) := opOf_encXNN _ x _
theorem storeBcd (x : RegIdx) : Statement (.storeBcd x) := opOf_encXNN _ x _
theorem storeRegs (x : RegIdx) : Statement (.storeRegs x) := opOf_encXNN _ x _
theorem loadRegs (x : RegIdx) : Statement (.loadRegs x) := opOf_encXNN _ x _

end Sys2Proof.Laws.EncodedClass
end

