-- ==== Sys2Proof/Tests/Slice0.lean ====
section
/-! SUPPORT. Tests: the well-formedness checks, one written-out word per instruction, and single steps. Expected values
are those of spec/95_test_vectors.md (T1 to T9, S3 to S7), named in each comment. Then the witnesses of the statements. -/

namespace Sys2Proof.Tests

open Machine

/-- The state after one step on the word `w` placed at `PC`. -/
def run (s : State) (w : Nat) : Option State :=
  match step (s.withFetchWord 16 w) with
  | .next t => some t
  | .fault _ => none
  | .refused _ => none

/-- One step on `w`, then a look at the result. -/
def see {α : Type} (s : State) (w : Nat) (look : State → α) : Option α := (run s w).map look

/-- Reset with registers set, as pairs of number and value. -/
def regs (l : List (RegIdx × Byte)) : State := l.foldl (fun s p => s.setReg p.1 p.2) State.reset

/-- A state with bytes written from `a` upward. -/
def poke (s : State) (a : Nat) (bytes : List Byte) : State := { s with mem := Memory.copy s.mem a bytes }

/-- The bytes of memory from `a` upward. -/
def peek (s : State) (a n : Nat) : List Byte := (List.range n).map fun k => Memory.read s.mem (a + k)

/-- A state with keys pressed. -/
def press (s : State) (l : List KeyIdx) : State := l.foldl (fun s k => s.setKey k true) s

/-- The set cells of the framebuffer, as indices, among the cells of the rows given. -/
def litIn (s : State) (rows : List (Fin 32)) : List Nat :=
  rows.flatMap fun y => ((List.range 64).filter fun x => s.fb.cell (Fin.ofNat 64 x, y)).map fun x => y.val * 64 + x

/-- A state with cells set. -/
def light (s : State) (l : List Pixel) : State := { s with fb := l.foldl Framebuffer.flip s.fb }

/-! ### Well-formedness: the checks refuse -/

theorem test_glyphs_wf : Glyphs.wf Config.glyphs = true := by decide
theorem test_glyphs_short_refused : Glyphs.wf (Config.glyphs.drop 1) = false := by decide
theorem test_program_wf : Program.wf [0x12, 0x00] = true := by decide
/-- T9: a load of 3585 bytes is refused, one of 3584 is not. -/
theorem test_program_long_refused :
    Program.wf (List.replicate 3585 0) = false ∧ Program.wf (List.replicate 3584 0) = true := by
  unfold Program.wf
  rw [List.length_replicate, List.length_replicate]
  decide

/-! ### Decoding: words of T1 -/

theorem test_decode_clearScreen : decode 0x00E0 = .ok .clearScreen := by decide
theorem test_decode_return : decode 0x00EE = .ok .returnSub := by decide
theorem test_decode_jump : decode 0x1FFF = .ok (.jump 0xFFF) := by decide
theorem test_decode_call : decode 0x2ABC = .ok (.call 0xABC) := by decide
theorem test_decode_skipIfEqImm : decode 0x3A7F = .ok (.skipIfEqImm 0xA 0x7F) := by decide
theorem test_decode_skipIfNeImm : decode 0x4F00 = .ok (.skipIfNeImm 0xF 0x00) := by decide
theorem test_decode_skipIfEqReg : decode 0x5AB0 = .ok (.skipIfEqReg 0xA 0xB) := by decide
theorem test_decode_loadImm : decode 0x6C80 = .ok (.loadImm 0xC 0x80) := by decide
theorem test_decode_addImm : decode 0x7001 = .ok (.addImm 0 1) := by decide
theorem test_decode_move : decode 0x8AB0 = .ok (.move 0xA 0xB) := by decide
theorem test_decode_or : decode 0x8AB1 = .ok (.orReg 0xA 0xB) := by decide
theorem test_decode_and : decode 0x8AB2 = .ok (.andReg 0xA 0xB) := by decide
theorem test_decode_xor : decode 0x8AB3 = .ok (.xorReg 0xA 0xB) := by decide
theorem test_decode_addReg : decode 0x8AB4 = .ok (.addReg 0xA 0xB) := by decide
theorem test_decode_subReg : decode 0x8AB5 = .ok (.subReg 0xA 0xB) := by decide
theorem test_decode_shiftRight : decode 0x8AB6 = .ok (.shiftRight 0xA 0xB) := by decide
theorem test_decode_subRegRev : decode 0x8AB7 = .ok (.subRegRev 0xA 0xB) := by decide
theorem test_decode_shiftLeft : decode 0x8ABE = .ok (.shiftLeft 0xA 0xB) := by decide
theorem test_decode_skipIfNeReg : decode 0x9AB0 = .ok (.skipIfNeReg 0xA 0xB) := by decide
theorem test_decode_loadIndex : decode 0xA123 = .ok (.loadIndex 0x123) := by decide
theorem test_decode_jumpOffset : decode 0xB003 = .ok (.jumpOffset 0x003) := by decide
theorem test_decode_randomAnd : decode 0xC10F = .ok (.randomAnd 1 0x0F) := by decide
theorem test_decode_drawSprite : decode 0xD125 = .ok (.drawSprite 1 2 5) := by decide
theorem test_decode_skipIfKeyDown : decode 0xE19E = .ok (.skipIfKeyDown 1) := by decide
theorem test_decode_skipIfKeyUp : decode 0xE1A1 = .ok (.skipIfKeyUp 1) := by decide
theorem test_decode_getDelay : decode 0xF107 = .ok (.getDelay 1) := by decide
theorem test_decode_waitKey : decode 0xF10A = .ok (.waitKey 1) := by decide
theorem test_decode_setDelay : decode 0xF115 = .ok (.setDelay 1) := by decide
theorem test_decode_setSound : decode 0xF118 = .ok (.setSound 1) := by decide
theorem test_decode_addIndex : decode 0xF11E = .ok (.addIndex 1) := by decide
theorem test_decode_fontAddress : decode 0xF129 = .ok (.fontAddress 1) := by decide
theorem test_decode_storeBcd : decode 0xF133 = .ok (.storeBcd 1) := by decide
theorem test_decode_storeRegs : decode 0xF155 = .ok (.storeRegs 1) := by decide
theorem test_decode_loadRegs : decode 0xF165 = .ok (.loadRegs 1) := by decide

/-- T1: unrecognized words of classes 0, 5, 8, 9. -/
theorem test_decode_unrecognized_low :
    [0x0000, 0x00E1, 0x00FE, 0x0123, 0x5AB1, 0x8AB8, 0x8AB9, 0x8ABA, 0x8ABB, 0x8ABC, 0x8ABD, 0x8ABF, 0x9ABF].all
      (fun w => decide (decode w = .error (.unrecognized w))) = true := by decide

/-- T1: unrecognized words of classes E and F. -/
theorem test_decode_unrecognized_high :
    [0xE19F, 0xE1A0, 0xE100, 0xF100, 0xF106, 0xF10B, 0xF11F, 0xF130, 0xF156, 0xF175, 0xF1FF].all
      (fun w => decide (decode w = .error (.unrecognized w))) = true := by decide

/-- T1: the byte at the lower address is the more significant. -/
theorem test_decode_big_endian : decodeBytes [0x12, 0x34, 0x56] = .ok (.jump 0x234, [0x56]) := by decide
theorem test_decode_truncated : decodeBytes [0x12] = .error .truncated := by decide
/-- R85: words of the syntax table. -/
theorem test_encode_words :
    encode (.jump 0x228) = 0x1228 ∧ encode (.loadImm 1 5) = 0x6105 ∧ encode (.drawSprite 1 2 5) = 0xD125 ∧
      encode (.addReg 1 2) = 0x8124 ∧ encode (.shiftRight 1 0) = 0x8106 ∧ encode (.storeBcd 1) = 0xF133 := by decide
theorem test_table_word : decodeTableWord 16 0x00E0 = some .clearScreen ∧ decodeTableWord 16 0 = none := by decide
theorem test_map_rows : opcodeMap.length = 34 := by decide

/-! ### The step (T2, T3, T9) -/

/-- T2: an unrecognized word. -/
theorem test_step_unrecognized :
    see State.reset 0x0000 (fun t => (t.pc, t.fault, t.diagnostics)) = some (0x202, none, [⟨0x200, 0x0000⟩]) := by decide
/-- T3: `PC` = 0xFFF faults at once, `PC` unchanged. -/
theorem test_step_fetch_out_of_range :
    see { State.reset with pc := 0xFFF } 0 (fun t => (t.pc, t.fault)) =
      some (0xFFF, some ⟨.fetchOutOfRange, 0xFFF, none, 0xFFF⟩) := by decide
/-- T3: the last instruction that can be fetched. -/
theorem test_step_last_fetch :
    see { State.reset with pc := 0xFFE } 0x6007 (fun t => (t.reg 0, t.pc)) = some (7, 0x1000) := by decide
/-- T9: a halted core's step changes nothing and returns Halted. -/
theorem test_step_halted :
    (match command .step { State.reset with fault := some ⟨.stackUnderflow, 0x200, some 0x00EE, 0⟩ } with
      | .next (t, r) => some (t.pc, t.diagnostics, r)
      | _ => none) = some (0x200, [], .halted) := by decide
/-- R60: an odd `PC` fetches like an even one. -/
theorem test_step_odd_pc :
    see { State.reset with pc := 0x201 } 0x6A07 (fun t => (t.reg 0xA, t.pc)) = some (7, 0x203) := by decide

/-! ### Control transfer (T3) -/

theorem test_return :
    see { State.reset with sp := 2, stack := (State.reset.stack.set 1 0x0456).set 0 0x0222 } 0x00EE
      (fun t => (t.pc, t.sp, t.stack[1])) = some (0x456, 1, 0x0456) := by decide
theorem test_return_underflow :
    see State.reset 0x00EE (fun t => (t.pc, t.sp, t.fault)) =
      some (0x202, 0, some ⟨.stackUnderflow, 0x200, some 0x00EE, 0⟩) := by decide
theorem test_jump : see State.reset 0x1228 (·.pc) = some 0x228 := by decide
theorem test_jump_odd : see State.reset 0x1201 (·.pc) = some 0x201 := by decide
theorem test_call_last_slot :
    see { State.reset with sp := 15 } 0x2300 (fun t => (t.pc, t.sp, t.stack[15])) = some (0x300, 16, 0x202) := by decide
theorem test_call_overflow :
    see { State.reset with sp := 16 } 0x2300 (fun t => (t.pc, t.sp, t.fault)) =
      some (0x202, 16, some ⟨.stackOverflow, 0x200, some 0x2300, 16⟩) := by decide
theorem test_jumpOffset : see (regs [(0, 4)]) 0xB003 (·.pc) = some 7 := by decide
theorem test_jumpOffset_not_masked : see (regs [(0, 0xFF)]) 0xBFFF (·.pc) = some 0x10FE := by decide

/-! ### Skips (T4) -/

theorem test_skipIfEqImm_taken : see (regs [(1, 5)]) 0x3105 (·.pc) = some 0x204 := by decide
theorem test_skipIfEqImm_not : see (regs [(1, 4)]) 0x3105 (·.pc) = some 0x202 := by decide
theorem test_skipIfNeImm_taken : see (regs [(1, 0xFF)]) 0x4105 (·.pc) = some 0x204 := by decide
theorem test_skipIfNeImm_not : see (regs [(1, 5)]) 0x4105 (·.pc) = some 0x202 := by decide
theorem test_skipIfEqReg_taken : see (regs [(1, 0x7F), (2, 0x7F)]) 0x5120 (·.pc) = some 0x204 := by decide
theorem test_skipIfEqReg_not : see (regs [(1, 1), (2, 2)]) 0x5120 (·.pc) = some 0x202 := by decide
theorem test_skipIfNeReg_taken : see (regs [(1, 1), (2, 2)]) 0x9120 (·.pc) = some 0x204 := by decide
theorem test_skipIfNeReg_same : see (regs [(1, 9)]) 0x9110 (·.pc) = some 0x202 := by decide
theorem test_skipIfKeyDown :
    see (press (regs [(1, 0x0A)]) [10]) 0xE19E (·.pc) = some 0x204 ∧
      see (press (regs [(1, 0x0A)]) [1]) 0xE19E (·.pc) = some 0x202 := by decide
theorem test_skipIfKeyDown_fault :
    see (regs [(1, 0x10)]) 0xE19E (fun t => (t.pc, t.fault)) =
      some (0x202, some ⟨.keyIndexOutOfRange, 0x200, some 0xE19E, 0x10⟩) := by decide
theorem test_skipIfKeyUp :
    see (regs [(1, 3)]) 0xE1A1 (·.pc) = some 0x204 ∧
      see (press (regs [(1, 3)]) [3]) 0xE1A1 (·.pc) = some 0x202 := by decide
theorem test_skipIfKeyUp_fault :
    see (regs [(1, 0xFF)]) 0xE1A1 (fun t => (t.pc, t.fault)) =
      some (0x202, some ⟨.keyIndexOutOfRange, 0x200, some 0xE1A1, 0xFF⟩) := by decide

/-! ### Registers (T5) -/

theorem test_loadImm : see State.reset 0x6FAB (fun t => (t.reg 15, t.pc)) = some (0xAB, 0x202) := by decide
theorem test_addImm_no_flag : see (regs [(0, 0xFF)]) 0x7002 (fun t => (t.reg 0, t.reg 15)) = some (0x01, 0) := by decide
theorem test_addImm_vf : see (regs [(15, 0xFF)]) 0x7F01 (fun t => t.reg 15) = some 0 := by decide
theorem test_move : see (regs [(2, 0x37)]) 0x8120 (fun t => (t.reg 1, t.reg 2)) = some (0x37, 0x37) := by decide
theorem test_or : see (regs [(1, 0x0F), (2, 0xF0), (15, 1)]) 0x8121 (fun t => (t.reg 1, t.reg 15)) = some (0xFF, 1) := by
  decide
theorem test_and : see (regs [(1, 0x3C), (2, 0x0F), (15, 1)]) 0x8122 (fun t => (t.reg 1, t.reg 15)) = some (0x0C, 1) := by
  decide
theorem test_xor : see (regs [(1, 0xFF), (2, 0x0F), (15, 1)]) 0x8123 (fun t => (t.reg 1, t.reg 15)) = some (0xF0, 1) := by
  decide
theorem test_addReg : see (regs [(1, 0xFF), (2, 0x01)]) 0x8124 (fun t => (t.reg 1, t.reg 15)) = some (0, 1) := by decide
theorem test_addReg_vf_last : see (regs [(15, 0x10), (1, 0x20)]) 0x8F14 (fun t => t.reg 15) = some 0 := by decide
theorem test_subReg : see (regs [(1, 3), (2, 5)]) 0x8125 (fun t => (t.reg 1, t.reg 15)) = some (0xFE, 0) := by decide
theorem test_subReg_vf_operand : see (regs [(1, 5), (15, 3)]) 0x81F5 (fun t => (t.reg 1, t.reg 15)) = some (2, 1) := by
  decide
/-- S3. -/
theorem test_shiftRight : see (regs [(1, 0xC1)]) 0x8106 (fun t => (t.reg 1, t.reg 15)) = some (0x60, 1) := by decide
theorem test_shiftRight_ignores_y :
    see (regs [(1, 0x01), (2, 0xFE)]) 0x8126 (fun t => (t.reg 1, t.reg 15, t.reg 2)) = some (0, 1, 0xFE) := by decide
theorem test_subRegRev : see (regs [(1, 5), (2, 3)]) 0x8127 (fun t => (t.reg 1, t.reg 15)) = some (0xFE, 0) := by decide
theorem test_subRegRev_equal : see (regs [(1, 9), (2, 9)]) 0x8127 (fun t => (t.reg 1, t.reg 15)) = some (0, 1) := by decide
theorem test_shiftLeft : see (regs [(1, 0x81)]) 0x810E (fun t => (t.reg 1, t.reg 15)) = some (0x02, 1) := by decide
theorem test_shiftLeft_ignores_y :
    see (regs [(1, 0x80), (2, 0x01)]) 0x812E (fun t => (t.reg 1, t.reg 15, t.reg 2)) = some (0, 1, 1) := by decide
/-- T5: `nn` = 0 gives 0 whatever the byte is, and the byte is still taken. -/
theorem test_randomAnd_zero : see State.reset 0xC100 (fun t => (t.draws, t.pc)) = some (1, 0x202) := by decide
/-- T5: `nn` = 0xFF passes the byte through. -/
theorem test_randomAnd_pass : see State.reset 0xC1FF (fun t => t.reg 1) = some (Config.randomByte 0 &&& 0xFF) := rfl

/-! ### Index and memory (T6) -/

theorem test_loadIndex : see State.reset 0xAFFF (·.index) = some 0x0FFF := by decide
theorem test_addIndex_wraps : see { regs [(1, 2)] with index := 0xFFFF } 0xF11E (·.index) = some 1 := by decide
theorem test_addIndex_no_flag :
    see { regs [(1, 1)] with index := 0x0FFF } 0xF11E (fun t => (t.index, t.reg 15)) = some (0x1000, 0) := by decide
theorem test_fontAddress : see (regs [(1, 0x0A)]) 0xF129 (·.index) = some 50 := by decide
theorem test_fontAddress_whole_byte : see (regs [(1, 0xFF)]) 0xF129 (·.index) = some 1275 := by decide
theorem test_storeBcd :
    see { regs [(1, 254)] with index := 0x300 } 0xF133 (fun t => (peek t 0x300 3, t.index)) =
      some ([2, 5, 4], 0x300) := by decide
theorem test_storeBcd_fault :
    see { regs [(1, 123)] with index := 0xFFE } 0xF133 (fun t => (t.fault, t.pc, peek t 0xFFE 2)) =
      some (some ⟨.memOutOfRange, 0x200, some 0xF133, 0x1000⟩, 0x202, [0, 0]) := by decide
theorem test_storeRegs :
    see { regs [(0, 0x11), (1, 0x22), (2, 0x33), (3, 0x44)] with index := 0x300 } 0xF255
      (fun t => (peek t 0x300 4, t.index)) = some ([0x11, 0x22, 0x33, 0], 0x300) := by decide
theorem test_storeRegs_fault :
    see { State.reset with index := 0xFF1 } 0xFF55 (fun t => (t.fault.map (·.info), t.pc)) = some (some 0x1000, 0x202) := by
  decide
theorem test_loadRegs :
    see { poke (regs [(3, 0x99)]) 0x300 [2, 5, 4] with index := 0x300 } 0xF265
      (fun t => (t.reg 0, t.reg 1, t.reg 2, t.reg 3, t.index)) = some (2, 5, 4, 0x99, 0x300) := by decide
theorem test_loadRegs_glyph : see State.reset 0xF265 (fun t => (t.reg 0, t.reg 1, t.reg 2)) = some (0xF0, 0x90, 0x90) := by
  decide

/-! ### Display (T7) -/

theorem test_clearScreen :
    see (light (regs [(15, 1)]) [(0, 0), (63, 31)]) 0x00E0 (fun t => (litIn t [0, 31], t.reg 15)) = some ([], 1) := by
  decide
theorem test_drawSprite_wraps :
    see { poke (regs [(0, 62), (1, 31)]) 0x300 [0xC0, 0x81] with index := 0x300 } 0xD012
      (fun t => (litIn t [31, 0], t.reg 15)) = some ([2046, 2047, 5, 62], 0) := by decide
theorem test_drawSprite_collision :
    see { light (poke (regs [(0, 3), (1, 2)]) 0x300 [0xC0]) [(3, 2)] with index := 0x300 } 0xD011
      (fun t => (litIn t [2], t.reg 15)) = some ([132], 1) := by decide

/-! ### Timers and keys (T8) -/

theorem test_getDelay : see { State.reset with delay := 0x2A } 0xF107 (fun t => (t.reg 1, t.delay)) = some (0x2A, 0x2A) := by
  decide
theorem test_waitKey_none : see (regs [(1, 9)]) 0xF10A (fun t => (t.pc, t.reg 1)) = some (0x200, 9) := by decide
theorem test_waitKey_least : see (press State.reset [12, 4, 9]) 0xF10A (fun t => (t.pc, t.reg 1)) = some (0x202, 4) := by
  decide
theorem test_setDelay : see (regs [(1, 0x3C)]) 0xF115 (fun t => (t.delay, t.sound)) = some (0x3C, 0) := by decide
theorem test_setSound : see (regs [(1, 5)]) 0xF118 (fun t => (t.sound, t.soundActive)) = some (5, true) := by decide

/-! ### Commands (T8, T9) -/

theorem test_tick :
    ({ State.reset with delay := 2, sound := 0 } : State).tick.delay = 1 ∧
      ({ State.reset with delay := 0, sound := 1 } : State).tick.sound = 0 := by decide
theorem test_setKey : (State.reset.setKey 5 true).key 5 = true ∧ ((State.reset.setKey 5 true).setKey 5 false).key 5 = false := by
  decide
theorem test_load_shorter :
    peek ((State.reset.load [0x11, 0x22, 0x33, 0x44]).1.load [0xAA, 0xBB]).1 0x200 4 = [0xAA, 0xBB, 0x33, 0x44] := by decide
theorem test_load_too_long : (State.reset.load (List.replicate 3585 0)).2 = .loadError := by
  unfold State.load
  rw [test_program_long_refused.1]
  rfl

/-! ### Witnesses: a state and operands that meet each statement's hypotheses together, at the boundaries of its clauses -/

/-- Reset with a word at `PC`. -/
def placed (pc w : Nat) : State := { State.reset with pc := BitVec.ofNat 16 pc }.withFetchWord 16 w

/-- Reset with a fault latched. -/
def halted : State := { State.reset with fault := some ⟨.stackUnderflow, 0x200, some 0x00EE, 0⟩ }

theorem witness_EncodeOfDecodeIsTheWord : decode 0xFFFF = .error (.unrecognized 0xFFFF) ∧ decode 0xDFFF = .ok (.drawSprite 15 15 15) := by
  decide
theorem witness_DecoderAgreesWithOpcodeMap :
    decode 0x8FFE = .ok (.shiftLeft 15 15) ∧ decode 0x8FFF = .error (.unrecognized 0x8FFF) := by decide
/-- The last address an instruction can be fetched from. -/
theorem witness_StepRunsTheDecodedInstruction :
    Running (placed 4094 0x1FFF) ∧ (placed 4094 0x1FFF).pc.toNat ≤ 4094 ∧
      decode (wordAtPc (placed 4094 0x1FFF)) = .ok (.jump 0xFFF) := ⟨rfl, by decide, by decide⟩
theorem witness_UnrecognizedWordIsADiagnosticNop :
    Running (placed 4094 0x8AB8) ∧ (placed 4094 0x8AB8).pc.toNat ≤ 4094 ∧
      decode (wordAtPc (placed 4094 0x8AB8)) = .error (.unrecognized 0x8AB8) := ⟨rfl, by decide, by decide⟩
theorem witness_HaltedStepChangesNothing : ¬ Running halted := by unfold Running; decide
theorem witness_FetchPastTheEndFaults :
    Running { State.reset with pc := 4095 } ∧ 4094 < ({ State.reset with pc := 4095 } : State).pc.toNat := ⟨rfl, by decide⟩
theorem witness_StepReportsOkOrItsFault : Running State.reset ∧ Running (placed 0x200 0x00EE) := ⟨rfl, rfl⟩
/-- A fetch fault. -/
theorem witness_FaultsArePrecise_fetch :
    Running { State.reset with pc := 4095 } ∧
      ∃ t, step { State.reset with pc := 4095 } = .next t ∧ t.fault = some ⟨.fetchOutOfRange, 4095, none, 4095⟩ :=
  ⟨rfl, _, rfl, by decide⟩
/-- A fault of the execute stage, at the last address that can be fetched from. -/
theorem witness_FaultsArePrecise_execute :
    Running (placed 4094 0x00EE) ∧
      ∃ t, step (placed 4094 0x00EE) = .next t ∧ t.fault = some ⟨.stackUnderflow, 4094, some 0x00EE, 0⟩ :=
  ⟨rfl, _, rfl, by decide⟩
theorem witness_StepKeepsTheInvariant : Inv State.reset ∧ ∃ t, step State.reset = .next t :=
  ⟨⟨rfl, by unfold PcInReach; decide, by unfold StackInReach; decide, fun r h => by cases h⟩, _, rfl⟩
/-- The largest `PC`, a full stack of the largest slots and a fault latched. -/
theorem witness_StepKeepsTheInvariant_edge :
    Inv { State.reset with pc := 4350, sp := 16, stack := Vector.replicate 16 4096, fault := some ⟨.fetchOutOfRange, 4350, none, 4350⟩ } :=
  ⟨rfl, by unfold PcInReach; decide, by unfold StackInReach; decide, fun r h => by
    cases h
    exact ⟨by unfold infoFits; decide, rfl, rfl⟩⟩
theorem witness_CommandsKeepTheInvariant :
    ∃ t, runCommands [.load [0x12, 0x00], .step, .tick, .setKey 15 true, .reset, .step] State.reset = .next t := ⟨_, rfl⟩
theorem witness_OnlyResetClearsAFault :
    ¬ Running halted ∧ (∃ t a, command .step halted = .next (t, a)) ∧
      (.reset ∉ ([.step, .tick, .load [1]] : List Command) ∧ ∃ t, runCommands [.step, .tick, .load [1]] halted = .next t) ∧
      ∃ t a, command .reset halted = .next (t, a) :=
  ⟨witness_HaltedStepChangesNothing, ⟨_, _, rfl⟩, ⟨by simp, _, rfl⟩, _, _, rfl⟩
theorem witness_TimersAndKeysHaveTheirWriters :
    ∃ t, exec (.getDelay 0) State.reset = .next t ∧ (∀ x, Instr.getDelay 0 ≠ .setDelay x) ∧
      (∀ x, Instr.getDelay 0 ≠ .setSound x) ∧ ∀ x nn, Instr.getDelay 0 ≠ .randomAnd x nn :=
  ⟨_, rfl, by simp, by simp, by simp⟩
theorem witness_IndexStackScreenMemoryHaveTheirWriters :
    ∃ t, exec (.loadRegs 15) State.reset = .next t ∧
      ((∀ n, Instr.loadRegs 15 ≠ .loadIndex n) ∧ (∀ x, Instr.loadRegs 15 ≠ .addIndex x) ∧ ∀ x, Instr.loadRegs 15 ≠ .fontAddress x) ∧
      ((∀ n, Instr.loadRegs 15 ≠ .call n) ∧ Instr.loadRegs 15 ≠ .returnSub) ∧
      (Instr.loadRegs 15 ≠ .clearScreen ∧ ∀ x y n, Instr.loadRegs 15 ≠ .drawSprite x y n) ∧
      (∀ x, Instr.loadRegs 15 ≠ .storeBcd x) ∧ ∀ x, Instr.loadRegs 15 ≠ .storeRegs x :=
  ⟨_, rfl, by simp, by simp, by simp, by simp, by simp⟩
/-- A flag writer that raises no fault and changes `VF`. -/
theorem witness_RegistersHaveTheirWriters :
    ∃ t, exec (.addReg 1 1) (regs [(1, 0x80)]) = .next t ∧ t.reg 15 ≠ (regs [(1, 0x80)]).reg 15 ∧
      WritesFlag (.addReg 1 1) ∧ t.fault = (regs [(1, 0x80)]).fault ∧ Running (regs [(1, 0x80)]) :=
  ⟨_, rfl, by decide, .inl ⟨1, 1, rfl⟩, rfl, rfl⟩
theorem witness_NoInstructionReadsTheSoundTimer : ∃ t, exec (.setSound 1) (regs [(1, 5)]) = .next t := ⟨_, rfl⟩
/-- A jump to itself at the last address that can be fetched from. -/
theorem witness_FinishedProgramStaysPut : Finished (placed 4094 0x1FFE) := ⟨rfl, by decide, 0xFFE, by decide, by decide⟩
/-- The last slot, then the full stack. -/
theorem witness_CallPushesAndJumps :
    ({ State.reset with sp := 15 } : State).sp.val = (15 : Fin Config.stackDepth).val ∧
      (Running { State.reset with sp := 16 } ∧ ({ State.reset with sp := 16 } : State).sp.val = 16) :=
  ⟨rfl, rfl, rfl⟩
/-- The full stack, one entry, then the empty stack. -/
theorem witness_ReturnPopsIntoPc :
    ({ State.reset with sp := 16 } : State).sp.val = (15 : Fin Config.stackDepth).val + 1 ∧
      ({ State.reset with sp := 1 } : State).sp.val = (0 : Fin Config.stackDepth).val + 1 ∧
      (Running State.reset ∧ State.reset.sp.val = 0) := ⟨rfl, rfl, rfl, rfl⟩
theorem witness_ReturnUndoesCall :
    ({ State.reset with sp := 15 } : State).sp.val < 16 ∧ ∃ t, exec (.call 0xFFF) { State.reset with sp := 15 } = .next t :=
  ⟨by decide, _, rfl⟩
theorem witness_KeySkipsSampleTheKey : ((regs [(1, 15)]).reg 1).toNat = (15 : KeyIdx).val := by decide
theorem witness_KeyIndexAboveFifteenFaults : Running (regs [(1, 16)]) ∧ 15 < ((regs [(1, 16)]).reg 1).toNat := ⟨rfl, by decide⟩
/-- `x` other than 15, of the four flag statements. -/
theorem witness_flag_destinations : (14 : RegIdx) ≠ 15 := by decide
/-- `I` + 2 at the last address. -/
theorem witness_StoreBcdWritesThreeDigits :
    Memory.wf (placed 0x200 0x1200).mem = true ∧ ({ placed 0x200 0x1200 with index := 4093 } : State).base + 2 ≤ 4095 :=
  ⟨by decide, by decide⟩
theorem witness_StoreRegsWritesTheRange :
    Memory.wf (placed 0x200 0x1200).mem = true ∧
      ({ placed 0x200 0x1200 with index := 4080 } : State).base + (15 : RegIdx).val ≤ 4095 := ⟨by decide, by decide⟩
theorem witness_LoadRegsReadsTheRange :
    ({ State.reset with index := 4080 } : State).base + (15 : RegIdx).val ≤ 4095 := by decide
/-- The first address past the end, for each of the four instructions. -/
theorem witness_DataAccessPastTheEndFaults :
    Running { State.reset with index := 4094 } ∧ ({ State.reset with index := 4094 } : State).base + (3 : Nibble).toNat - 1 = 4096 ∧
      ({ State.reset with index := 4094 } : State).base + 2 = 4096 ∧
      ({ State.reset with index := 4094 } : State).base + (2 : RegIdx).val = 4096 := ⟨rfl, by decide, by decide, by decide⟩
/-- The last row at the last address, and no row at all with `I` past the end. -/
theorem witness_DrawSpriteIsXorWithCollision :
    ({ State.reset with index := 4081 } : State).base + (15 : Nibble).toNat - 1 ≤ 4095 ∧ (0 : Nibble).toNat = 0 := by decide
/-- The upper left pixel of the glyph of 0 is covered and was set; the pixel at its right end is not covered. -/
theorem witness_DrawSprite_covered :
    SpriteCovers (light State.reset [(0, 0)]) 0 0 5 (0, 0) ∧ (light State.reset [(0, 0)]).fb.cell (0, 0) = true :=
  ⟨⟨0, 0, by decide, by decide, by decide, by decide, by decide⟩, by decide⟩
theorem witness_DrawSprite_uncovered : ¬ SpriteCovers State.reset 0 0 0 (4, 0) := by
  rintro ⟨_, _, h, _⟩; exact Nat.not_lt_zero _ h
theorem witness_DrawSprite_no_collision (p : Pixel) (_ : SpriteCovers State.reset 0 0 5 p) : State.reset.fb.cell p = false :=
  Framebuffer.cell_clear p
theorem witness_DrawingTwiceRestoresTheScreen :
    (14 : RegIdx) ≠ 15 ∧ State.reset.base + (5 : Nibble).toNat - 1 ≤ 4095 ∧
      ∃ t, exec (.drawSprite 14 14 5) State.reset = .next t := ⟨by decide, by decide, _, rfl⟩
theorem witness_TimersMoveOnlyByTicks :
    (∃ t, exec (.setDelay 0) State.reset = .next t) ∧ (∀ x, Instr.returnSub ≠ .setDelay x) ∧
      (∀ x, Instr.returnSub ≠ .setSound x) ∧ ∃ t, exec .returnSub State.reset = .next t :=
  ⟨⟨_, rfl⟩, by simp, by simp, _, rfl⟩
/-- Only the highest key pressed; no key pressed. -/
theorem witness_WaitKeyTakesTheLeastKeyOrRewinds :
    ((press State.reset [15]).key 15 = true ∧ ∀ j : KeyIdx, j < 15 → (press State.reset [15]).key j = false) ∧
      ∀ k, State.reset.key k = false := by decide
theorem witness_WaitingChangesNothing :
    Running (placed 4094 0xF10A) ∧ (placed 4094 0xF10A).pc.toNat ≤ 4094 ∧
      decode (wordAtPc (placed 4094 0xF10A)) = .ok (.waitKey 1) ∧ ∀ k, (placed 4094 0xF10A).key k = false :=
  ⟨rfl, by decide, by decide, by decide⟩
/-- The longest image that fits, and one byte more. -/
theorem witness_LoadCopiesTheImageOrRejects :
    (Memory.wf State.reset.mem = true ∧ (List.replicate 3584 (1 : Byte)).length ≤ 3584) ∧
      3584 < (List.replicate 3585 (1 : Byte)).length := by
  rw [List.length_replicate, List.length_replicate]; decide
theorem witness_ResetLeavesTheResetValues : 79 < Config.glyphs.length ∧ 80 ≤ 80 := by decide

end Sys2Proof.Tests
end

section
/-! PROOFS. Control transfer (40_control_flow.md): where `jump` goes and what it keeps. -/

namespace Sys2Proof

open Machine

/-- A zero-extended address keeps its value, so a transfer to it lands on `nnn` itself. -/
@[simp] theorem toNat_extAddr (nnn : Addr) : (extAddr nnn).toNat = nnn.toNat :=
  BitVec.toNat_setWidth_of_le (by decide)

/-- `jump` writes `PC` alone (R102). -/
theorem exec_jump (nnn : Addr) (s : State) : exec (.jump nnn) s = .next (s.setPc (extAddr nnn)) := rfl

/-- Settles O23: `jump` is one `setPc` of the zero-extended address, and `setPc` keeps every part but `PC`. -/
theorem jumpGoesToItsAddress : Obligations.JumpGoesToItsAddress := fun nnn s =>
  ⟨s.setPc (extAddr nnn), exec_jump nnn s, toNat_extAddr nnn, keeps_setPc s _⟩

end Sys2Proof
end

section
/-! PROOFS. Conditional skips (41_skips.md): each is one `skipIf` under the comparison its rule names. -/

namespace Sys2Proof

open Machine

/-! ### The meaning of each skip (R110 to R113) -/

theorem exec_skipIfEqImm (x : RegIdx) (nn : Byte) (s : State) :
    exec (.skipIfEqImm x nn) s = .next (s.skipIf (s.reg x == nn)) := rfl
theorem exec_skipIfNeImm (x : RegIdx) (nn : Byte) (s : State) :
    exec (.skipIfNeImm x nn) s = .next (s.skipIf (s.reg x != nn)) := rfl
theorem exec_skipIfEqReg (x y : RegIdx) (s : State) :
    exec (.skipIfEqReg x y) s = .next (s.skipIf (s.reg x == s.reg y)) := rfl
theorem exec_skipIfNeReg (x y : RegIdx) (s : State) :
    exec (.skipIfNeReg x y) s = .next (s.skipIf (s.reg x != s.reg y)) := rfl

/-! ### What a skip answers -/

@[simp] theorem skipIf_pc (s : State) (c : Bool) : (s.skipIf c).pc = if c then s.pc + 2 else s.pc := by
  rw [skipIf_eq, State.setPc_pc]

/-- A skip moves `PC` as its condition says and keeps the rest, whatever proposition the condition decides (R116). -/
theorem exec_skipIf_spec {i : Instr} {s : State} {c : Bool} {p : Prop} [Decidable p]
    (h : exec i s = .next (s.skipIf c)) (hc : c = true ↔ p) :
    ∃ t, exec i s = .next t ∧ t.pc = (if p then s.pc + 2 else s.pc) ∧ KeepsAllBut (· = .pc) s t :=
  ⟨s.skipIf c, h, (skipIf_pc s c).trans (if_congr hc rfl rfl), keeps_skipIf s c⟩

/-- A skip on the equality of two bytes compares their values. -/
theorem exec_skipIf_beq_spec {i : Instr} {s : State} {a b : Byte} (h : exec i s = .next (s.skipIf (a == b))) :
    ∃ t, exec i s = .next t ∧ t.pc = (if a.toNat = b.toNat then s.pc + 2 else s.pc) ∧ KeepsAllBut (· = .pc) s t :=
  exec_skipIf_spec h (beq_iff_eq.trans BitVec.toNat_inj.symm)

/-- A skip on the difference of two bytes does the opposite of one on their equality. -/
theorem exec_skipIf_bne_spec {i : Instr} {s : State} {a b : Byte} (h : exec i s = .next (s.skipIf (a != b))) :
    ∃ t, exec i s = .next t ∧ t.pc = (if a.toNat = b.toNat then s.pc else s.pc + 2) ∧ KeepsAllBut (· = .pc) s t := by
  have hc : (a != b) = true ↔ ¬ a.toNat = b.toNat := bne_iff_ne.trans BitVec.toNat_inj.not.symm
  simpa only [ite_not] using exec_skipIf_spec h hc

/-- Settles O28: the two immediate skips are `skipIf` on the comparison of `V[x]` with `nn`. -/
theorem immediateSkipsCompare : Obligations.ImmediateSkipsCompare := fun x nn s =>
  ⟨exec_skipIf_beq_spec (exec_skipIfEqImm x nn s), exec_skipIf_bne_spec (exec_skipIfNeImm x nn s)⟩

/-- Settles O29: the two register skips are `skipIf` on the comparison of `V[x]` with `V[y]`. -/
theorem registerSkipsCompare : Obligations.RegisterSkipsCompare := fun x y s =>
  ⟨exec_skipIf_beq_spec (exec_skipIfEqReg x y s), exec_skipIf_bne_spec (exec_skipIfNeReg x y s)⟩

end Sys2Proof
end

section
/-! PROOFS. Register load, arithmetic, logic and shift (42_alu.md): each instruction is one register write, or one result
followed by its flag. -/

namespace Sys2Proof

open Machine

/-! ### The meaning of each instruction (R120 to R130) -/

theorem exec_loadImm (x : RegIdx) (nn : Byte) (s : State) : exec (.loadImm x nn) s = .next (s.setReg x nn) := rfl
theorem exec_addImm (x : RegIdx) (nn : Byte) (s : State) :
    exec (.addImm x nn) s = .next (s.setReg x (addBytes (s.reg x) nn)) := rfl
theorem exec_move (x y : RegIdx) (s : State) : exec (.move x y) s = .next (s.setReg x (s.reg y)) := rfl
theorem exec_orReg (x y : RegIdx) (s : State) : exec (.orReg x y) s = .next (s.setReg x (s.reg x ||| s.reg y)) := rfl
theorem exec_andReg (x y : RegIdx) (s : State) : exec (.andReg x y) s = .next (s.setReg x (s.reg x &&& s.reg y)) := rfl
theorem exec_xorReg (x y : RegIdx) (s : State) : exec (.xorReg x y) s = .next (s.setReg x (s.reg x ^^^ s.reg y)) := rfl
theorem exec_addReg (x y : RegIdx) (s : State) : exec (.addReg x y) s =
    .next (s.setResultThenFlag x (addBytes (s.reg x) (s.reg y)) (carryOut (s.reg x) (s.reg y))) := rfl
theorem exec_subReg (x y : RegIdx) (s : State) : exec (.subReg x y) s =
    .next (s.setResultThenFlag x (subBytes (s.reg x) (s.reg y)) (noBorrow (s.reg x) (s.reg y))) := rfl
theorem exec_shiftRight (x y : RegIdx) (s : State) : exec (.shiftRight x y) s =
    .next (s.setResultThenFlag x (shiftRightOne (s.reg x)) (droppedRight (s.reg x))) := rfl
theorem exec_subRegRev (x y : RegIdx) (s : State) : exec (.subRegRev x y) s =
    .next (s.setResultThenFlag x (subBytes (s.reg y) (s.reg x)) (noBorrow (s.reg y) (s.reg x))) := rfl
theorem exec_shiftLeft (x y : RegIdx) (s : State) : exec (.shiftLeft x y) s =
    .next (s.setResultThenFlag x (shiftLeftOne (s.reg x)) (droppedLeft (s.reg x))) := rfl

/-! ### Plain register writes -/

theorem reg_setReg_self (s : State) (x : RegIdx) (b : Byte) : (s.setReg x b).reg x = b := by
  rw [State.reg_setReg, if_pos rfl]

/-- Settles O32: both are one `setReg`, of `nn` and of `V[y]`. -/
theorem loadImmAndMoveWriteVx : Obligations.LoadImmAndMoveWriteVx := fun x y nn s =>
  ⟨⟨_, exec_loadImm x nn s, reg_setReg_self s x _, keeps_setReg s x _⟩,
    _, exec_move x y s, reg_setReg_self s x _, keeps_setReg s x _⟩

/-- Settles O33: one `setReg` of the sum modulo 256, which writes `VF` only as its destination. -/
theorem addImmWrapsWithoutFlag : Obligations.AddImmWrapsWithoutFlag := fun x nn s =>
  ⟨_, exec_addImm x nn s, by rw [reg_setReg_self, addBytes_toNat], keeps_setReg s x _⟩

/-- Settles O34: each is one `setReg` of a bitwise operation, whose bits the library gives. -/
theorem logicIsBitwiseWithoutFlag : Obligations.LogicIsBitwiseWithoutFlag := fun x y s =>
  ⟨⟨_, exec_orReg x y s, fun b => by rw [reg_setReg_self, BitVec.getLsbD_or], keeps_setReg s x _⟩,
    ⟨_, exec_andReg x y s, fun b => by rw [reg_setReg_self, BitVec.getLsbD_and], keeps_setReg s x _⟩,
    _, exec_xorReg x y s, fun b => by rw [reg_setReg_self, BitVec.getLsbD_xor], keeps_setReg s x _⟩

/-! ### A result, then its flag -/

/-- The byte of a flag that decides `p`. -/
theorem toNat_flagByte_decide (p : Prop) [Decidable p] : (flagByte (decide p)).toNat = if p then 1 else 0 := by
  simp only [flagByte_toNat, decide_eq_true_eq]

theorem toNat_flagByte_carryOut (p q : Byte) :
    (flagByte (carryOut p q)).toNat = if 255 < p.toNat + q.toNat then 1 else 0 :=
  toNat_flagByte_decide _

theorem toNat_flagByte_noBorrow (p q : Byte) :
    (flagByte (noBorrow p q)).toNat = if q.toNat ≤ p.toNat then 1 else 0 :=
  toNat_flagByte_decide _

theorem toNat_flagByte_droppedRight (p : Byte) : (flagByte (droppedRight p)).toNat = p.toNat % 2 := by
  rw [droppedRight_eq, toNat_flagByte_decide]
  split <;> omega

theorem toNat_flagByte_droppedLeft (p : Byte) : (flagByte (droppedLeft p)).toNat = p.toNat / 128 := by
  have := p.isLt
  rw [droppedLeft_eq, toNat_flagByte_decide]
  split <;> omega

/-- What a flag-writing instruction answers: the flag in `VF` whatever `x` is, as it is written last; the result, read as
`value` reads a byte, in `V[x]` unless the flag has replaced it; every other part kept (10_state.md R22). -/
theorem exec_setResultThenFlag_spec {i : Instr} {s : State} {x : RegIdx} {r : Byte} {c : Bool} {n : Nat} {α : Type}
    (value : Byte → α) {v : α} (h : exec i s = .next (s.setResultThenFlag x r c)) (hr : value r = v)
    (hc : (flagByte c).toNat = n) :
    ∃ t, exec i s = .next t ∧ (t.reg 15).toNat = n ∧ (x ≠ 15 → value (t.reg x) = v) ∧
      KeepsAllBut (fun p => p = .reg x ∨ p = .reg 15) s t := by
  have flag : (s.setResultThenFlag x r c).reg 15 = flagByte c :=
    (State.reg_setResultThenFlag s x 15 r c).trans (if_pos rfl)
  have result (hx : x ≠ 15) : (s.setResultThenFlag x r c).reg x = r :=
    (State.reg_setResultThenFlag s x x r c).trans ((if_neg hx).trans (if_pos rfl))
  exact ⟨_, h, by rw [flag, hc], fun hx => by rw [result hx, hr], keeps_setResultThenFlag s x r c⟩

/-- Settles O35: the result is the sum modulo 256, the flag the carry out. -/
theorem addRegWritesSumThenCarry : Obligations.AddRegWritesSumThenCarry := fun x y s =>
  exec_setResultThenFlag_spec BitVec.toNat (exec_addReg x y s) (addBytes_toNat _ _) (toNat_flagByte_carryOut _ _)

/-- Settles O36: the result is `V[x]` - `V[y]` modulo 256, the flag its no-borrow. -/
theorem subRegWritesDifferenceThenNoBorrow : Obligations.SubRegWritesDifferenceThenNoBorrow := fun x y s =>
  exec_setResultThenFlag_spec (fun b => (b.toNat : Int)) (exec_subReg x y s) (subBytes_toNat _ _)
    (toNat_flagByte_noBorrow _ _)

/-- Settles O37: as for `sub-reg`, with the operands exchanged. -/
theorem subRegRevWritesDifferenceThenNoBorrow : Obligations.SubRegRevWritesDifferenceThenNoBorrow := fun x y s =>
  exec_setResultThenFlag_spec (fun b => (b.toNat : Int)) (exec_subRegRev x y s) (subBytes_toNat _ _)
    (toNat_flagByte_noBorrow _ _)

/-- Settles O38: result and flag of each shift are computed from `V[x]` alone; the flag is the bit shifted out. -/
theorem shiftsMoveByOneThenDroppedBit : Obligations.ShiftsMoveByOneThenDroppedBit := fun x y s =>
  ⟨exec_setResultThenFlag_spec BitVec.toNat (exec_shiftRight x y s) (shiftRightOne_toNat _)
      (toNat_flagByte_droppedRight _),
    exec_setResultThenFlag_spec BitVec.toNat (exec_shiftLeft x y s) (shiftLeftOne_toNat _)
      (toNat_flagByte_droppedLeft _)⟩

end Sys2Proof
end

section
/-! PROOFS. Index and memory (43_index_memory.md): `load-index` is one write of `I`. -/

namespace Sys2Proof

open Machine

/-- `load-index` writes `I` alone (R140). -/
theorem exec_loadIndex (nnn : Addr) (s : State) : exec (.loadIndex nnn) s = .next (s.setIndex (extAddr nnn)) := rfl

/-- Settles O40: one `setIndex` of the zero-extended address, which keeps every part but `I`. -/
theorem loadIndexWritesI : Obligations.LoadIndexWritesI := fun nnn s =>
  have value : (s.setIndex (extAddr nnn)).index.toNat = nnn.toNat := by
    rw [State.setIndex_index, toNat_extAddr]
  ⟨_, exec_loadIndex nnn s, value, keeps_setIndex s _⟩

end Sys2Proof
end

section
/-! PROOFS. Display (44_display.md): `clear-screen` replaces the framebuffer by the cleared one. -/

namespace Sys2Proof

open Machine

/-- `clear-screen` replaces the framebuffer alone (R150). -/
theorem exec_clearScreen (s : State) : exec .clearScreen s = .next { s with fb := Framebuffer.clear } := rfl

/-- Settles O46: every cell of the cleared framebuffer is unset, and replacing the framebuffer keeps every other part. -/
theorem clearScreenUnsetsEveryCell : Obligations.ClearScreenUnsetsEveryCell := fun s =>
  ⟨_, exec_clearScreen s, Framebuffer.cell_clear, keeps_fb s _⟩

end Sys2Proof
end

section
/-! PROOFS. Timers (45_timer_key.md): each instruction is one write, and a timer falls by one at each tick to 0. -/

namespace Sys2Proof

open Machine

/-! ### The meaning of each instruction (R160, R162, R163) -/

theorem exec_getDelay (x : RegIdx) (s : State) : exec (.getDelay x) s = .next (s.setReg x s.delay) := rfl
theorem exec_setDelay (x : RegIdx) (s : State) : exec (.setDelay x) s = .next (s.setDelay (s.reg x)) := rfl
theorem exec_setSound (x : RegIdx) (s : State) : exec (.setSound x) s = .next (s.setSound (s.reg x)) := rfl

/-- Settles O50: `get-delay` is one `setReg` of `DT`, `set-delay` one `setDelay` of `V[x]`. -/
theorem delayTimerIsReadAndWritten : Obligations.DelayTimerIsReadAndWritten := fun x s =>
  ⟨⟨_, exec_getDelay x s, reg_setReg_self s x _, keeps_setReg s x _⟩,
    _, exec_setDelay x s, State.setDelay_delay s _, keeps_setDelay s _⟩

/-! ### Counting down (R181) -/

/-- The floor at 0 is that of truncated subtraction. -/
@[simp] theorem toNat_countDown (b : Byte) : (countDown b).toNat = b.toNat - 1 := by
  unfold countDown
  split
  case isTrue h => rw [h]; rfl
  case isFalse h => exact BitVec.toNat_sub_of_le (y := 1) (by bv_omega)

theorem toNat_sound_ticks (n : Nat) (s : State) : (State.ticks n s).sound.toNat = s.sound.toNat - n := by
  induction n generalizing s with
  | zero => rfl
  | succ n ih =>
    calc (State.ticks n s.tick).sound.toNat
      _ = s.tick.sound.toNat - n := ih s.tick
      _ = s.sound.toNat - 1 - n := by rw [State.tick_sound, toNat_countDown]
      _ = s.sound.toNat - (n + 1) := by omega

/-! ### Sound (R163, R182) -/

theorem soundActive_iff_ne_zero (s : State) : s.soundActive = true ↔ s.sound ≠ 0 := bne_iff_ne

theorem soundActive_iff_pos (s : State) : s.soundActive = true ↔ 0 < s.sound.toNat := by
  rw [soundActive_iff_ne_zero, Nat.pos_iff_ne_zero]
  exact BitVec.toNat_inj.symm.not

theorem soundActive_ticks_iff (n : Nat) (s : State) : (State.ticks n s).soundActive = true ↔ n < s.sound.toNat := by
  rw [soundActive_iff_pos, toNat_sound_ticks, Nat.sub_pos_iff_lt]

/-- Settles O51: one `setSound` of `V[x]`, which `n` ticks bring to `V[x]` - `n` floored at 0. -/
theorem setSoundIsActiveForItsTicks : Obligations.SetSoundIsActiveForItsTicks := fun x s =>
  ⟨_, exec_setSound x s, State.setSound_sound s _, soundActive_iff_ne_zero _, fun n => soundActive_ticks_iff n _,
    keeps_setSound s _⟩

end Sys2Proof
end

section
/-! PROOFS. Commands (60_exceptions.md): `set_key` is one write of the key state. -/

namespace Sys2Proof

open Machine

/-! ### The meaning of the command (R183) -/

theorem command_setKey (k : KeyIdx) (pressed : Bool) (s : State) :
    command (.setKey k pressed) s = .next (s.setKey k pressed, .none) := rfl

theorem key_setKey_self (s : State) (k : KeyIdx) (pressed : Bool) : (s.setKey k pressed).key k = pressed := by
  rw [State.key_setKey, if_pos rfl]

/-- Settles O56: `set_key` is one `setKey`, which writes key `k` and keeps every other part. -/
theorem setKeyWritesOneKey : Obligations.SetKeyWritesOneKey := fun k pressed s =>
  ⟨_, command_setKey k pressed s, key_setKey_self s k pressed, keeps_setKey s k pressed⟩

end Sys2Proof
end

section
/-! PROOFS. Timer hazards (70_reset_and_hazards.md): which instructions write a timer, and the countdown of `DT`. -/

namespace Sys2Proof

open Machine

/-! ### What leaves the timers alone (R28) -/

/-- A next state, where the result has one, holds the timers of `s`. -/
def LeavesTimers (s : State) : Result → Prop
  | .next t => t.delay = s.delay ∧ t.sound = s.sound
  | .fault _ | .refused _ => True

theorem leavesTimers_skipIf (s : State) (c : Bool) : LeavesTimers s (.next (s.skipIf c)) := by
  rw [skipIf_eq]
  exact ⟨rfl, rfl⟩

theorem leavesTimers_setRegsFrom (s : State) (k : Nat) (bs : List Byte) :
    LeavesTimers s (.next (s.setRegsFrom k bs)) := by
  rw [State.setRegsFrom_eq]
  exact ⟨rfl, rfl⟩

theorem leavesTimers_raiseIn (i : Instr) (code : FaultCode) (info : Nat) (s : State) :
    LeavesTimers s (raiseIn i code info s) := by
  rw [raiseIn, raise_eq]
  exact ⟨rfl, rfl⟩

theorem leavesTimers_withRange {i : Instr} {n : Nat} {s : State} {effect : Result} (h : LeavesTimers s effect) :
    LeavesTimers s (withRange i n s effect) := by
  unfold withRange
  split
  · exact leavesTimers_raiseIn i _ _ s
  · exact h

theorem leavesTimers_withKey {i : Instr} {k : Byte} {s : State} {effect : Bool → Result}
    (h : ∀ down, LeavesTimers s (effect down)) : LeavesTimers s (withKey i k s effect) := by
  unfold withKey
  split
  · exact h _
  · exact leavesTimers_raiseIn i _ _ s

theorem leavesTimers_writeBytes (s : State) (a : Nat) (bs : List Byte) :
    LeavesTimers s (ofExcept (writeBytes s a bs)) := by
  induction bs generalizing s a with
  | nil => exact ⟨rfl, rfl⟩
  | cons b bs ih =>
    rw [writeBytes, memWrite]
    by_cases ha : a ≤ Config.maxAddr
    · rw [if_pos ha]
      exact ih { s with mem := Memory.write s.mem a b } (a + 1)
    · rw [if_neg ha]
      trivial

/-! ### The instructions that branch or check an operand -/

theorem leavesTimers_execReturn (s : State) : LeavesTimers s (execReturn s) := by
  unfold execReturn
  rcases Nat.eq_zero_or_pos s.sp.val with hsp | hsp
  · rw [popAddr_empty hsp]
    exact leavesTimers_raiseIn _ _ _ s
  · rw [popAddr_of_pos hsp (by omega)]
    exact ⟨rfl, rfl⟩

theorem leavesTimers_execCall (nnn : Addr) (s : State) : LeavesTimers s (execCall nnn s) := by
  unfold execCall
  rcases Nat.lt_or_eq_of_le (Nat.le_of_lt_succ s.sp.isLt) with hsp | hsp
  · rw [pushAddr_of_lt hsp]
    exact ⟨rfl, rfl⟩
  · rw [pushAddr_full hsp]
    exact leavesTimers_raiseIn _ _ _ s

theorem leavesTimers_execWaitKey (x : RegIdx) (s : State) : LeavesTimers s (execWaitKey x s) := by
  unfold execWaitKey
  split <;> exact ⟨rfl, rfl⟩

theorem leavesTimers_execDrawSprite (x y : RegIdx) (n : Nibble) (s : State) :
    LeavesTimers s (execDrawSprite x y n s) := by
  refine leavesTimers_withRange ?_
  split
  · trivial
  · exact ⟨rfl, rfl⟩

theorem leavesTimers_execLoadRegs (x : RegIdx) (s : State) : LeavesTimers s (execLoadRegs x s) := by
  refine leavesTimers_withRange ?_
  split
  · trivial
  · exact leavesTimers_setRegsFrom s 0 _

theorem leavesTimers_execSkipIfKeyDown (x : RegIdx) (s : State) : LeavesTimers s (execSkipIfKeyDown x s) :=
  leavesTimers_withKey fun _ => leavesTimers_skipIf s _

theorem leavesTimers_execSkipIfKeyUp (x : RegIdx) (s : State) : LeavesTimers s (execSkipIfKeyUp x s) :=
  leavesTimers_withKey fun _ => leavesTimers_skipIf s _

/-! ### All instructions -/

/-- Only the two instructions that name a timer as their destination may write one (R162, R163). -/
theorem exec_writesTimer_or_leavesTimers (i : Instr) (s : State) :
    (∃ x, i = .setDelay x) ∨ (∃ x, i = .setSound x) ∨ LeavesTimers s (exec i s) := by
  cases i with
  | setDelay x => exact .inl ⟨x, rfl⟩
  | setSound x => exact .inr (.inl ⟨x, rfl⟩)
  | returnSub => exact .inr (.inr (leavesTimers_execReturn s))
  | call nnn => exact .inr (.inr (leavesTimers_execCall nnn s))
  | waitKey x => exact .inr (.inr (leavesTimers_execWaitKey x s))
  | drawSprite x y n => exact .inr (.inr (leavesTimers_execDrawSprite x y n s))
  | loadRegs x => exact .inr (.inr (leavesTimers_execLoadRegs x s))
  | storeBcd x | storeRegs x => exact .inr (.inr (leavesTimers_withRange (leavesTimers_writeBytes s _ _)))
  | skipIfKeyDown x => exact .inr (.inr (leavesTimers_execSkipIfKeyDown x s))
  | skipIfKeyUp x => exact .inr (.inr (leavesTimers_execSkipIfKeyUp x s))
  | skipIfEqImm x nn | skipIfNeImm x nn | skipIfEqReg x y | skipIfNeReg x y =>
    exact .inr (.inr (leavesTimers_skipIf s _))
  | _ => exact .inr (.inr ⟨rfl, rfl⟩)

theorem exec_timers_eq_of_not_writer {i : Instr} {s t : State} (h : exec i s = .next t) :
    ((∀ x, i ≠ .setDelay x) → t.delay = s.delay) ∧ ((∀ x, i ≠ .setSound x) → t.sound = s.sound) := by
  rcases exec_writesTimer_or_leavesTimers i s with ⟨x, rfl⟩ | ⟨x, rfl⟩ | keeps
  · obtain rfl : s.setDelay (s.reg x) = t := Host.Outcome.next.inj ((exec_setDelay x s).symm.trans h)
    exact ⟨fun other => absurd rfl (other x), fun _ => State.setDelay_sound s _⟩
  · obtain rfl : s.setSound (s.reg x) = t := Host.Outcome.next.inj ((exec_setSound x s).symm.trans h)
    exact ⟨fun _ => State.setSound_delay s _, fun other => absurd rfl (other x)⟩
  · rw [h] at keeps
    obtain ⟨hdelay, hsound⟩ := keeps
    exact ⟨fun _ => hdelay, fun _ => hsound⟩

/-! ### Counting down (R181) -/

theorem toNat_delay_ticks (n : Nat) (s : State) : (State.ticks n s).delay.toNat = s.delay.toNat - n := by
  induction n generalizing s with
  | zero => rfl
  | succ n ih =>
    rw [State.ticks, ih, State.tick_delay, toNat_countDown]
    omega

/-- Settles O53: no instruction but its own writer changes a timer; `set-delay` is one `setDelay` of `V[x]`, which
`get-delay` reads back and `n` ticks bring to `V[x]` - `n` floored at 0. -/
theorem timersMoveOnlyByTicks : Obligations.TimersMoveOnlyByTicks := by
  refine ⟨fun i s t h => exec_timers_eq_of_not_writer h, fun x y s t h => ?_⟩
  obtain rfl : s.setDelay (s.reg x) = t := Host.Outcome.next.inj ((exec_setDelay x s).symm.trans h)
  exact ⟨⟨_, exec_getDelay y _, reg_setReg_self _ y _⟩, fun n => toNat_delay_ticks n _⟩

end Sys2Proof
end

section
/-! PROOFS. Encoding (30_encoding.md): decoding undoes encoding format by format, and encoding undoes decoding class by
class. -/

namespace Sys2Proof

/-! ### Decoding an encoded instruction (R88) -/

/-- Each format hands its fields back, and the sub-operation field selects the instruction. -/
theorem decode_encode (i : Instr) : decode (encode i) = .ok i := by
  cases i with
  | clearScreen | returnSub => rfl
  | jump nnn | call nnn | loadIndex nnn | jumpOffset nnn => simp [decode, encode, opOf_encNNN, nnnOf_encNNN]
  | skipIfEqImm x nn | skipIfNeImm x nn | loadImm x nn | addImm x nn | randomAnd x nn =>
    simp [decode, encode, opOf_encXNN, xOf_encXNN, nnOf_encXNN]
  | drawSprite x y n => simp [decode, encode, opOf_encXYN, xOf_encXYN, yOf_encXYN, nOf_encXYN]
  | skipIfEqReg x y | skipIfNeReg x y =>
    simp [decode, decodeXY0, encode, opOf_encXYN, xOf_encXYN, yOf_encXYN, nOf_encXYN]
  | move x y | orReg x y | andReg x y | xorReg x y | addReg x y | subReg x y | shiftRight x y | subRegRev x y
  | shiftLeft x y => simp [decode, decodeClass8, encode, opOf_encXYN, xOf_encXYN, yOf_encXYN, nOf_encXYN]
  | skipIfKeyDown x | skipIfKeyUp x => simp [decode, decodeClassE, encode, opOf_encXNN, xOf_encXNN, nnOf_encXNN]
  | getDelay x | waitKey x | setDelay x | setSound x | addIndex x | fontAddress x | storeBcd x | storeRegs x
  | loadRegs x => simp [decode, decodeClassF, encode, opOf_encXNN, xOf_encXNN, nnOf_encXNN]

/-- Settles O1: the two bytes are the instruction's word again, which decodes to the instruction. -/
theorem decodeOfEncodeIsTheInstruction : Obligations.DecodeOfEncodeIsTheInstruction := by
  intro i rest
  show decodeBytes (_ :: _ :: rest) = _
  rw [decodeBytes, word_bytes, decode_encode]

/-- Settles O6: each word is the encoding of its instruction. -/
theorem wordsOfTheOpcodeMapDecode : Obligations.WordsOfTheOpcodeMapDecode :=
  ⟨decode_encode .returnSub, decode_encode (.call 0xABC), decode_encode (.skipIfEqImm 10 0x7F),
    decode_encode (.subRegRev 10 11), decode_encode (.loadIndex 0x123), decode_encode (.drawSprite 1 2 5),
    decode_encode (.skipIfKeyUp 1), decode_encode (.waitKey 1), decodeOfEncodeIsTheInstruction (.jump 0x234) []⟩

/-- Settles O3: the number of each format's word, at the row's operation class and sub-operation. -/
theorem encodingsAreTheRowsOfTheMap : Obligations.EncodingsAreTheRowsOfTheMap := by
  intro x y n nn nnn
  simp only [encode, toNat_encNNN, toNat_encXNN, toNat_encXYN, BitVec.toNat_ofNat, true_and]
  and_intros
  all_goals omega

/-! ### Encoding a decoded word (R75)

A word is its fields in their format, so a class that reads its operands from the word and checks its sub-operation
drops no bit. -/

section
variable {w : Word} {op : Nibble} (hop : (opOf w).toNat = op.toNat)
include hop

theorem encNNN_of_fields : encNNN op (nnnOf w) = w := by
  apply BitVec.eq_of_toNat_eq
  rw [toNat_encNNN, ← hop, toNat_opOf, toNat_nnnOf]
  omega

theorem encXNN_of_fields {nn : Byte} (hnn : nnOf w = nn) : encXNN op (xOf w) nn = w := by
  apply BitVec.eq_of_toNat_eq
  rw [toNat_encXNN, ← hop, ← hnn, toNat_opOf, val_xOf, toNat_nnOf]
  omega

theorem encXYN_of_fields {n : Nibble} (hn : (nOf w).toNat = n.toNat) : encXYN op (xOf w) (yOf w) n = w := by
  apply BitVec.eq_of_toNat_eq
  rw [toNat_encXYN, ← hop, ← hn, toNat_opOf, val_xOf, val_yOf, toNat_nOf]
  omega

end

theorem encode_of_decodeClass0 {w : Word} {i : Instr} (h : decodeClass0 w = .ok i) : encode i = w := by
  unfold decodeClass0 at h
  repeat' split at h
  all_goals cases h
  all_goals subst_vars; rfl

theorem encode_of_decodeClass8 {w : Word} {i : Instr} (hop : (opOf w).toNat = 8) (h : decodeClass8 w = .ok i) :
    encode i = w := by
  unfold decodeClass8 at h
  split at h
  all_goals cases h
  all_goals exact encXYN_of_fields hop ‹_›

theorem encode_of_decodeClassE {w : Word} {i : Instr} (hop : (opOf w).toNat = 14) (h : decodeClassE w = .ok i) :
    encode i = w := by
  unfold decodeClassE at h
  repeat' split at h
  all_goals cases h
  all_goals exact encXNN_of_fields hop ‹_›

theorem encode_of_decodeClassF {w : Word} {i : Instr} (hop : (opOf w).toNat = 15) (h : decodeClassF w = .ok i) :
    encode i = w := by
  unfold decodeClassF at h
  repeat' split at h
  all_goals cases h
  all_goals exact encXNN_of_fields hop ‹_›

theorem decodeXY0_eq_ok {w : Word} {f : RegIdx → RegIdx → Instr} {i : Instr} :
    decodeXY0 w f = .ok i ↔ nOf w = 0#4 ∧ f (xOf w) (yOf w) = i := by
  unfold decodeXY0
  split <;> simp [*]

/-- Settles O2: class by class (`h_k` is class `k - 1`), the encoder puts the fields that were read back where they came
from. -/
theorem encodeOfDecodeIsTheWord : Obligations.EncodeOfDecodeIsTheWord := by
  intro w i h
  unfold decode at h
  split at h
  case h_1 => exact encode_of_decodeClass0 h
  case h_6 hop | h_10 hop =>
    obtain ⟨hn, rfl⟩ := decodeXY0_eq_ok.mp h
    exact encXYN_of_fields hop (congrArg BitVec.toNat hn)
  case h_9 hop => exact encode_of_decodeClass8 hop h
  case h_14 hop => cases h; exact encXYN_of_fields hop rfl
  case h_15 hop => exact encode_of_decodeClassE hop h
  case h_16 hop => exact encode_of_decodeClassF hop h
  case h_2 hop | h_3 hop | h_11 hop | h_12 hop => cases h; exact encNNN_of_fields hop
  case h_4 hop | h_5 hop | h_7 hop | h_8 hop | h_13 hop => cases h; exact encXNN_of_fields hop rfl
  case h_17 => cases h

end Sys2Proof
end

section
/-! PROOFS. The opcode map (30_encoding.md R76 to R82): the words the decoder rejects, and the rows a word matches. -/

namespace Sys2Proof

/-! ### The rejected words, class by class (R77 to R81) -/

/-- The words of no instruction, by operation class. -/
def Unlisted (w : Word) : Prop :=
  (w.toNat / 4096 = 0 ∧ w.toNat ≠ 0x00E0 ∧ w.toNat ≠ 0x00EE) ∨
  ((w.toNat / 4096 = 5 ∨ w.toNat / 4096 = 9) ∧ w.toNat % 16 ≠ 0) ∨
  (w.toNat / 4096 = 8 ∧ 8 ≤ w.toNat % 16 ∧ w.toNat % 16 ≠ 14) ∨
  (w.toNat / 4096 = 14 ∧ w.toNat % 256 ∉ [0x9E, 0xA1]) ∨
  (w.toNat / 4096 = 15 ∧ w.toNat % 256 ∉ [0x07, 0x0A, 0x15, 0x18, 0x1E, 0x29, 0x33, 0x55, 0x65])

section
variable {w : Word} {e : DecodeReject}

theorem decodeClass0_eq_error :
    decodeClass0 w = .error e ↔ .unrecognized w = e ∧ w.toNat ≠ 0x00E0 ∧ w.toNat ≠ 0x00EE := by
  unfold decodeClass0
  simp only [← BitVec.toNat_inj]
  split_ifs <;> simp_all

theorem decodeXY0_eq_error {f : RegIdx → RegIdx → Instr} :
    decodeXY0 w f = .error e ↔ .unrecognized w = e ∧ w.toNat % 16 ≠ 0 := by
  unfold decodeXY0
  simp only [← BitVec.toNat_inj, toNat_nOf]
  split_ifs <;> simp_all

theorem decodeClass8_eq_error :
    decodeClass8 w = .error e ↔ .unrecognized w = e ∧ 8 ≤ w.toNat % 16 ∧ w.toNat % 16 ≠ 14 := by
  unfold decodeClass8
  rw [toNat_nOf]
  split
  case h_10 =>
    simp only [imp_false] at *
    have listed : 8 ≤ w.toNat % 16 ∧ w.toNat % 16 ≠ 14 := by omega
    simp [listed]
  all_goals simp [*]

theorem decodeClassE_eq_error :
    decodeClassE w = .error e ↔ .unrecognized w = e ∧ w.toNat % 256 ∉ [0x9E, 0xA1] := by
  unfold decodeClassE
  simp only [← BitVec.toNat_inj, toNat_nnOf]
  split_ifs <;> simp_all

theorem decodeClassF_eq_error :
    decodeClassF w = .error e ↔
      .unrecognized w = e ∧ w.toNat % 256 ∉ [0x07, 0x0A, 0x15, 0x18, 0x1E, 0x29, 0x33, 0x55, 0x65] := by
  unfold decodeClassF
  simp only [← BitVec.toNat_inj, toNat_nnOf]
  split_ifs <;> simp_all

theorem decode_eq_error : decode w = .error e ↔ .unrecognized w = e ∧ Unlisted w := by
  unfold decode Unlisted
  rw [toNat_opOf]
  split
  case h_1 hop => simp [hop, decodeClass0_eq_error]
  case h_6 hop | h_10 hop => simp [hop, decodeXY0_eq_error]
  case h_9 hop => simp [hop, decodeClass8_eq_error]
  case h_15 hop => simp [hop, decodeClassE_eq_error]
  case h_16 hop => simp [hop, decodeClassF_eq_error]
  case h_17 =>
    simp only [imp_false] at *
    exact absurd w.isLt (by omega)
  all_goals simp [*]

end

/-- Settles O5: the rejected words, class by class. -/
theorem unrecognizedWordsAreTheListedSets : Obligations.UnrecognizedWordsAreTheListedSets := fun _ =>
  decode_eq_error.trans (and_iff_right rfl)

/-! ### Words under the masks of the map -/

theorem encNNN_and_op (op : Nibble) (nnn : Addr) : encNNN op nnn &&& 0xF000 = encNNN op 0#12 := by
  rw [show (0xF000 : Word) = BitVec.allOnes 4 ++ 0#12 from rfl, encNNN, BitVec.and_append, BitVec.and_allOnes,
    BitVec.and_zero]
  rfl

theorem encXNN_and_op (op : Nibble) (x : RegIdx) (nn : Byte) : encXNN op x nn &&& 0xF000 = encXNN op 0 0#8 := by
  rw [show (0xF000 : Word) = (BitVec.allOnes 4 ++ 0#4) ++ 0#8 from rfl, encXNN, BitVec.and_append, BitVec.and_append,
    BitVec.and_allOnes, BitVec.and_zero, BitVec.and_zero]
  rfl

theorem encXYN_and_op (op : Nibble) (x y : RegIdx) (n : Nibble) :
    encXYN op x y n &&& 0xF000 = encXYN op 0 0 0#4 := by
  rw [show (0xF000 : Word) = (BitVec.allOnes 4 ++ 0#4) ++ (0#4 ++ 0#4) from rfl, encXYN, BitVec.and_append,
    BitVec.and_append, BitVec.and_append, BitVec.and_allOnes, BitVec.and_zero, BitVec.and_zero, BitVec.and_zero]
  rfl

theorem encXNN_and_op_nn (op : Nibble) (x : RegIdx) (nn : Byte) : encXNN op x nn &&& 0xF0FF = encXNN op 0 nn := by
  rw [show (0xF0FF : Word) = (BitVec.allOnes 4 ++ 0#4) ++ BitVec.allOnes 8 from rfl, encXNN, BitVec.and_append,
    BitVec.and_append, BitVec.and_allOnes, BitVec.and_allOnes, BitVec.and_zero]
  rfl

theorem encXYN_and_op_n (op : Nibble) (x y : RegIdx) (n : Nibble) :
    encXYN op x y n &&& 0xF00F = encXYN op 0 0 n := by
  rw [show (0xF00F : Word) = (BitVec.allOnes 4 ++ 0#4) ++ (0#4 ++ BitVec.allOnes 4) from rfl, encXYN, BitVec.and_append,
    BitVec.and_append, BitVec.and_append, BitVec.and_allOnes, BitVec.and_allOnes, BitVec.and_zero, BitVec.and_zero]
  rfl

/-! ### The row of an instruction -/

/-- The bits of an instruction's word that are no operand (R73). -/
def maskOf : Instr → Word
  | .clearScreen | .returnSub => 0xFFFF
  | .jump _ | .call _ | .loadIndex _ | .jumpOffset _ | .skipIfEqImm _ _ | .skipIfNeImm _ _ | .loadImm _ _ | .addImm _ _
  | .randomAnd _ _ | .drawSprite _ _ _ => 0xF000
  | .skipIfEqReg _ _ | .skipIfNeReg _ _ | .move _ _ | .orReg _ _ | .andReg _ _ | .xorReg _ _ | .addReg _ _
  | .subReg _ _ | .shiftRight _ _ | .subRegRev _ _ | .shiftLeft _ _ => 0xF00F
  | .skipIfKeyDown _ | .skipIfKeyUp _ | .getDelay _ | .waitKey _ | .setDelay _ | .setSound _ | .addIndex _
  | .fontAddress _ | .storeBcd _ | .storeRegs _ | .loadRegs _ => 0xF0FF

/-- The row whose mask keeps the fixed bits of an instruction's word. -/
def rowOf (i : Instr) : OpRow := ⟨mnemonicOf i, maskOf i, encode i &&& maskOf i⟩

theorem rowOf_accepts (i : Instr) : (rowOf i).accepts (encode i) = true := beq_self_eq_true _

/-- Under its mask a word has no operand left, so the row is one of 34 that can be looked up. -/
theorem rowOf_mem (i : Instr) : rowOf i ∈ opcodeMap := by
  cases i
  all_goals simp only [rowOf, mnemonicOf, maskOf, encode, encNNN_and_op, encXNN_and_op, encXYN_and_op,
    encXNN_and_op_nn, encXYN_and_op_n]
  all_goals decide

/-! ### No word matches two rows -/

/-- Two rows ask for different values of a bit that both look at. -/
def OpRow.Disjoint (r r' : OpRow) : Prop := r.pattern &&& r'.mask ≠ r'.pattern &&& r.mask

theorem opcodeMap_disjoint : opcodeMap.Pairwise OpRow.Disjoint := by
  unfold OpRow.Disjoint
  decide

theorem OpRow.Disjoint.not_both {r r' : OpRow} (h : r.Disjoint r') {w : Word} (hr : r.accepts w = true)
    (hr' : r'.accepts w = true) : False := by
  rw [OpRow.accepts, beq_iff_eq] at hr hr'
  apply h
  rw [← hr, ← hr', BitVec.and_assoc, BitVec.and_assoc, BitVec.and_comm r.mask]

theorem rowsOf_eq_singleton {w : Word} {r : OpRow} (hr : r ∈ opcodeMap) (hw : r.accepts w = true) : rowsOf w = [r] := by
  have mem : r ∈ rowsOf w := List.mem_filter.mpr ⟨hr, hw⟩
  have accepts (q) (hq : q ∈ rowsOf w) : q.accepts w = true := (List.mem_filter.mp hq).2
  have disjoint : (rowsOf w).Pairwise OpRow.Disjoint := opcodeMap_disjoint.filter _
  match h : rowsOf w with
  | [] => simp [h] at mem
  | [q] => simpa [h, eq_comm] using mem
  | q :: q' :: qs =>
    rw [h] at accepts disjoint
    have := List.rel_of_pairwise_cons disjoint List.mem_cons_self
    exact (this.not_both (accepts q (by simp)) (accepts q' (by simp))).elim

theorem rowsOf_encode (i : Instr) : rowsOf (encode i) = [rowOf i] := rowsOf_eq_singleton (rowOf_mem i) (rowOf_accepts i)

/-! ### No row for a rejected word -/

section
variable (w : Word)

theorem toNat_and_op : (w &&& 0xF000).toNat = w.toNat / 4096 * 4096 := by
  rw [← toNat_opOf]
  conv_lhs => rw [← encNNN_of_fields (w := w) rfl, encNNN_and_op, toNat_encNNN]
  simp

theorem toNat_and_op_n : (w &&& 0xF00F).toNat = w.toNat / 4096 * 4096 + w.toNat % 16 := by
  rw [← toNat_opOf, ← toNat_nOf]
  conv_lhs => rw [← encXYN_of_fields (w := w) rfl rfl, encXYN_and_op_n, toNat_encXYN]
  simp

theorem toNat_and_op_nn : (w &&& 0xF0FF).toNat = w.toNat / 4096 * 4096 + w.toNat % 256 := by
  rw [← toNat_opOf, ← toNat_nnOf]
  conv_lhs => rw [← encXNN_of_fields (w := w) rfl rfl, encXNN_and_op_nn, toNat_encXNN]
  simp

theorem toNat_and_all : (w &&& 0xFFFF).toNat = w.toNat := congrArg BitVec.toNat BitVec.and_allOnes

end

theorem rowsOf_eq_nil_of_unlisted {w : Word} (h : Unlisted w) : rowsOf w = [] := by
  simp only [Unlisted, List.mem_cons, List.not_mem_nil, or_false, not_or] at h
  simp only [rowsOf, List.filter_eq_nil_iff, OpRow.accepts, beq_iff_eq, ← BitVec.toNat_inj, opcodeMap, opcodeMapLow,
    opcodeMapAlu, opcodeMapHigh, List.cons_append, List.nil_append, List.forall_mem_cons, toNat_and_op, toNat_and_op_n,
    toNat_and_op_nn, toNat_and_all, BitVec.reduceToNat, List.not_mem_nil, false_imp_iff, implies_true, and_true]
  and_intros
  all_goals omega

/-- Settles O4: a decoded word is the encoding of its instruction, whose row it matches, and no two rows share a word; a
rejected word lies in the listed sets, which match no row. -/
theorem decoderAgreesWithOpcodeMap : Obligations.DecoderAgreesWithOpcodeMap := by
  refine fun w => ⟨fun i h => ?_, fun e h => ?_⟩
  · rw [← encodeOfDecodeIsTheWord w i h, rowsOf_encode]
    rfl
  · obtain ⟨rfl, hw⟩ := decode_eq_error.mp h
    exact ⟨rfl, rowsOf_eq_nil_of_unlisted hw⟩

end Sys2Proof
end

section
/-! PROOFS. Faults of the execute stage (60_exceptions.md R172 to R174) and the return stack (40_control_flow.md). -/

namespace Sys2Proof

open Machine

/-- An execute-stage fault of a running core latches its record and changes nothing else. -/
theorem raiseIn_spec {s : State} (h : Running s) (i : Instr) (code : FaultCode) (info : Nat) :
    ∃ t, raiseIn i code info s = .next t ∧ t.fault = some ⟨code, s.pc - 2, some (encode i), info⟩ ∧
      KeepsAllBut (· = .fault) s t :=
  ⟨_, rfl, by rw [raise_running h], keeps_raise s _ _ _ _⟩

/-! ### `jump-offset` (R104) -/

@[simp] theorem toNat_extByte (b : Byte) : (extByte b).toNat = b.toNat := BitVec.toNat_setWidth_of_le (by decide)

theorem exec_jumpOffset (nnn : Addr) (s : State) :
    exec (.jumpOffset nnn) s = .next (s.setPc (extByte (s.reg 0) + extAddr nnn)) := rfl

theorem toNat_extByte_add_extAddr (b : Byte) (nnn : Addr) : (extByte b + extAddr nnn).toNat = b.toNat + nnn.toNat := by
  have := b.isLt
  have := nnn.isLt
  rw [BitVec.toNat_add, toNat_extByte, toNat_extAddr]
  omega

/-- Settles O24: one `setPc` of a sum that cannot pass 16 bits. -/
theorem jumpOffsetAddsV0 : Obligations.JumpOffsetAddsV0 := fun nnn s =>
  ⟨_, exec_jumpOffset nnn s, toNat_extByte_add_extAddr _ _, keeps_setPc s _⟩

/-! ### `call` (R103) -/

theorem free_or_full (s : State) :
    (∃ k : Fin Config.stackDepth, s.sp.val = k.val) ∨ s.sp.val = Config.stackDepth :=
  (Nat.lt_or_eq_of_le (Nat.le_of_lt_succ s.sp.isLt)).imp_left fun free => ⟨⟨_, free⟩, rfl⟩

/-- After a `call` that found slot `k` free. -/
def Machine.State.called (s : State) (k : Fin Config.stackDepth) (nnn : Addr) : State :=
  { s with stack := s.stack.set k s.pc, sp := k.succ, pc := extAddr nnn }

theorem exec_call_of_free {s : State} {k : Fin Config.stackDepth} (hk : s.sp.val = k.val) (nnn : Addr) :
    exec (.call nnn) s = .next (s.called k nnn) := by
  show execCall nnn s = _
  rw [execCall, pushAddr_of_lt (hk ▸ k.isLt)]
  simp only [hk]
  rfl

theorem exec_call_full {s : State} (h : s.sp.val = Config.stackDepth) (nnn : Addr) :
    exec (.call nnn) s = raiseIn (.call nnn) .stackOverflow Config.stackDepth s := by
  show execCall nnn s = _
  rw [execCall, pushAddr_full h, h]

theorem stack_called_self (s : State) (k : Fin Config.stackDepth) (nnn : Addr) : (s.called k nnn).stack[k] = s.pc :=
  Vector.getElem_set_self _

theorem keeps_called (s : State) (k : Fin Config.stackDepth) (nnn : Addr) :
    KeepsAllBut (fun p => p = .pc ∨ p = .sp ∨ p = .slot k) s (s.called k nnn) := by
  intro p hp
  simp only [not_or] at hp
  obtain ⟨hpc, hsp, hslot⟩ := hp
  cases p with
  | pc => exact absurd rfl hpc
  | sp => exact absurd rfl hsp
  | slot j => exact Vector.getElem_set_ne k.isLt j.isLt fun h => hslot (congrArg _ (Fin.ext h).symm)
  | _ => rfl

/-- Settles O25: with a slot free the state is `called`, with none the fault is raised. -/
theorem callPushesAndJumps : Obligations.CallPushesAndJumps := by
  refine fun nnn s => ⟨fun k hk => ?_, fun running full => ?_⟩
  · exact ⟨_, exec_call_of_free hk nnn, stack_called_self s k nnn, congrArg Nat.succ hk.symm, toNat_extAddr nnn,
      keeps_called s k nnn⟩
  · obtain ⟨t, ht, hfault, hkeeps⟩ := raiseIn_spec running (.call nnn) .stackOverflow Config.stackDepth
    exact ⟨t, _, (exec_call_full full nnn).trans ht, hfault, rfl, rfl, hkeeps⟩

/-! ### `return` (R101) -/

theorem empty_or_entry (s : State) : s.sp.val = 0 ∨ ∃ k : Fin Config.stackDepth, s.sp.val = k.val + 1 := by
  obtain empty | pos := Nat.eq_zero_or_pos s.sp.val
  · exact .inl empty
  · exact .inr ⟨⟨s.sp.val - 1, by omega⟩, (Nat.sub_add_cancel pos).symm⟩

/-- After a `return` that popped slot `k`. -/
def Machine.State.returned (s : State) (k : Fin Config.stackDepth) : State :=
  { s with sp := k.castSucc, pc := s.stack[k] }

theorem exec_returnSub_of_entry {s : State} {k : Fin Config.stackDepth} (hk : s.sp.val = k.val + 1) :
    exec .returnSub s = .next (s.returned k) := by
  show execReturn s = _
  rw [execReturn, popAddr_of_pos (by omega) (by omega)]
  simp only [hk]
  rfl

theorem exec_returnSub_empty {s : State} (h : s.sp.val = 0) :
    exec .returnSub s = raiseIn .returnSub .stackUnderflow 0 s := by
  show execReturn s = _
  rw [execReturn, popAddr_empty h, h]

theorem keeps_returned (s : State) (k : Fin Config.stackDepth) :
    KeepsAllBut (fun p => p = .pc ∨ p = .sp) s (s.returned k) := by
  intro p hp
  obtain ⟨hpc, hsp⟩ := not_or.mp hp
  cases p with
  | pc => exact absurd rfl hpc
  | sp => exact absurd rfl hsp
  | _ => rfl

/-- Settles O26: with an entry the state is `returned`, with none the fault is raised. -/
theorem returnPopsIntoPc : Obligations.ReturnPopsIntoPc := by
  refine fun s => ⟨fun k hk => ?_, fun running empty => ?_⟩
  · exact ⟨_, exec_returnSub_of_entry hk, rfl, rfl, keeps_returned s k⟩
  · obtain ⟨t, ht, hfault, hkeeps⟩ := raiseIn_spec running .returnSub .stackUnderflow 0
    exact ⟨t, _, (exec_returnSub_empty empty).trans ht, hfault, rfl, rfl, hkeeps⟩

/-- Settles O27: the `return` pops the slot that the `call` filled. -/
theorem returnUndoesCall : Obligations.ReturnUndoesCall := by
  intro nnn s t free h
  have called := exec_call_of_free (s := s) (k := ⟨s.sp.val, free⟩) rfl nnn
  obtain rfl := Host.Outcome.next.inj (called.symm.trans h)
  exact ⟨_, exec_returnSub_of_entry rfl, stack_called_self s _ nnn, rfl⟩

end Sys2Proof
end

section
/-! PROOFS. Key skips (41_skips.md R114, R115) and the key wait (45_timer_key.md R161). -/

namespace Sys2Proof

open Machine

theorem exec_skipIfKeyDown (x : RegIdx) (s : State) :
    exec (.skipIfKeyDown x) s = withKey (.skipIfKeyDown x) (s.reg x) s fun down => .next (s.skipIf down) := rfl

theorem exec_skipIfKeyUp (x : RegIdx) (s : State) :
    exec (.skipIfKeyUp x) s = withKey (.skipIfKeyUp x) (s.reg x) s fun down => .next (s.skipIf (!down)) := rfl

theorem exec_skipIfKeyDown_of_key {s : State} {x : RegIdx} {k : KeyIdx} (h : (s.reg x).toNat = k.val) :
    exec (.skipIfKeyDown x) s = .next (s.skipIf (s.key k)) := by
  rw [exec_skipIfKeyDown, withKey_in (h ▸ k.isLt)]
  simp only [h]

theorem exec_skipIfKeyUp_of_key {s : State} {x : RegIdx} {k : KeyIdx} (h : (s.reg x).toNat = k.val) :
    exec (.skipIfKeyUp x) s = .next (s.skipIf (!s.key k)) := by
  rw [exec_skipIfKeyUp, withKey_in (h ▸ k.isLt)]
  simp only [h]

/-- A key index above 15 is a fault of both key skips (R114). -/
theorem exec_keySkip_out {s : State} {x : RegIdx} {i : Instr} (hi : i = .skipIfKeyDown x ∨ i = .skipIfKeyUp x)
    (h : 15 < (s.reg x).toNat) : exec i s = raiseIn i .keyIndexOutOfRange (s.reg x).toNat s := by
  have out : ¬ (s.reg x).toNat < 16 := by omega
  obtain rfl | rfl := hi
  · rw [exec_skipIfKeyDown, withKey_out out]
  · rw [exec_skipIfKeyUp, withKey_out out]

/-- Settles O30: each key skip is a `skipIf` on the key or on its opposite. -/
theorem keySkipsSampleTheKey : Obligations.KeySkipsSampleTheKey := by
  refine fun x s k h => ⟨exec_skipIf_spec (exec_skipIfKeyDown_of_key h) Iff.rfl, ?_⟩
  simpa only [ite_not] using
    exec_skipIf_spec (p := ¬ s.key k = true) (exec_skipIfKeyUp_of_key h) (by rw [Bool.not_eq_true', Bool.not_eq_true])

/-- Settles O31: the index check of both key skips raises the fault. -/
theorem keyIndexAboveFifteenFaults : Obligations.KeyIndexAboveFifteenFaults := by
  intro x s i running out hi
  rw [exec_keySkip_out hi out]
  exact raiseIn_spec running i _ _

/-! ### `wait-key` -/

theorem exec_waitKey_of_least {s : State} {k : Nat} (h : s.leastKey = some k) (x : RegIdx) :
    exec (.waitKey x) s = .next (s.setReg x (BitVec.ofNat 8 k)) := by
  show execWaitKey x s = _
  rw [execWaitKey, h]

theorem exec_waitKey_of_none {s : State} (h : s.leastKey = none) (x : RegIdx) :
    exec (.waitKey x) s = .next (s.setPc (s.pc - 2)) := by
  show execWaitKey x s = _
  rw [execWaitKey, h]

/-- Settles O54: one `setReg` of the least key's index, which fits a byte, or one `setPc`. -/
theorem waitKeyTakesTheLeastKeyOrRewinds : Obligations.WaitKeyTakesTheLeastKeyOrRewinds := by
  refine fun x s => ⟨fun k pressed least => ?_, fun none => ?_⟩
  · have found := State.leastKey_eq_some.mpr ⟨k.isLt, pressed, least⟩
    have fits : (BitVec.ofNat 8 k.val).toNat = k.val := Nat.mod_eq_of_lt (by omega)
    exact ⟨_, exec_waitKey_of_least found x, by rw [reg_setReg_self, fits], keeps_setReg s x _⟩
  · exact ⟨_, exec_waitKey_of_none (State.leastKey_eq_none.mpr none) x, rfl, keeps_setPc s _⟩

end Sys2Proof
end

section
/-! PROOFS. The random port (42_alu.md R131) and the two sums written to `I` (43_index_memory.md R141, R142). -/

namespace Sys2Proof

open Machine

theorem exec_randomAnd (x : RegIdx) (nn : Byte) (s : State) :
    exec (.randomAnd x nn) s = .next (s.takeRandom.2.setReg x (Config.randomByte s.draws &&& nn)) := rfl

/-- Settles O39: one byte is taken and its AND with `nn` written by one `setReg`. -/
theorem randomAndMasksOneFreeByte : Obligations.RandomAndMasksOneFreeByte := fun x nn s =>
  ⟨_, exec_randomAnd x nn s, fun b => by rw [reg_setReg_self, BitVec.getLsbD_and], rfl,
    ((keeps_takeRandom s).mono fun _ => .inr).trans ((keeps_setReg _ x _).mono fun _ => .inl)⟩

theorem exec_addIndex (x : RegIdx) (s : State) :
    exec (.addIndex x) s = .next (s.setIndex (s.index + extByte (s.reg x))) := rfl

theorem exec_fontAddress (x : RegIdx) (s : State) :
    exec (.fontAddress x) s =
      .next (s.setIndex (BitVec.ofNat 16 (Config.glyphBase + Config.glyphStride * (s.reg x).toNat))) := rfl

/-- A glyph's address fits 16 bits whatever the register holds (D13). -/
theorem toNat_glyphAddress (b : Byte) :
    (BitVec.ofNat 16 (Config.glyphBase + Config.glyphStride * b.toNat)).toNat = 5 * b.toNat := by
  have := b.isLt
  simp only [BitVec.toNat_ofNat, Config.glyphBase, Config.glyphStride]
  omega

/-- Settles O41: each is one `setIndex`; the sum wraps at 16 bits, the product cannot reach them. -/
theorem addIndexAndFontAddressWriteI : Obligations.AddIndexAndFontAddressWriteI := fun x s =>
  ⟨⟨_, exec_addIndex x s, by rw [State.setIndex_index, BitVec.toNat_add, toNat_extByte], keeps_setIndex s _⟩,
    _, exec_fontAddress x s, toNat_glyphAddress _, keeps_setIndex s _⟩

end Sys2Proof
end

section
/-! PROOFS. The memory instructions (43_index_memory.md R143 to R146): what each does with its range in memory, and the
fault it raises past the end (20_memory.md R59). -/

namespace Sys2Proof

open Machine

theorem exec_storeBcd (x : RegIdx) (s : State) : exec (.storeBcd x) s =
    withRange (.storeBcd x) 3 s (ofExcept (writeBytes s s.base (bcdDigits (s.reg x)))) := rfl

theorem exec_storeRegs (x : RegIdx) (s : State) : exec (.storeRegs x) s =
    withRange (.storeRegs x) (x.val + 1) s (ofExcept (writeBytes s s.base (s.regsUpTo x))) := rfl

theorem exec_loadRegs (x : RegIdx) (s : State) : exec (.loadRegs x) s = execLoadRegs x s := rfl

theorem exec_drawSprite (x y : RegIdx) (n : Nibble) (s : State) :
    exec (.drawSprite x y n) s = execDrawSprite x y n s := rfl

/-! ### With the range in memory -/

/-- The state with bytes stored from `I` up. -/
def Machine.State.stored (s : State) (bs : List Byte) : State := { s with mem := Memory.copy s.mem s.base bs }

/-- The `n` bytes from `I` up. -/
def Machine.State.bytesAtIndex (s : State) (n : Nat) : List Byte :=
  (List.range n).map fun k => Memory.read s.mem (s.base + k)

@[simp] theorem length_bytesAtIndex (s : State) (n : Nat) : (s.bytesAtIndex n).length = n := by
  simp [State.bytesAtIndex]

@[simp] theorem getElem_bytesAtIndex (s : State) (n k : Nat) (h : k < (s.bytesAtIndex n).length) :
    (s.bytesAtIndex n)[k] = Memory.read s.mem (s.base + k) := by
  simp [State.bytesAtIndex]

/-- Nothing is read when no byte is asked for, wherever `I` points. -/
theorem readBytes_base {s : State} {n : Nat} (h : s.base + n ≤ Config.memSize ∨ n = 0) :
    readBytes s s.base n = .ok (s.bytesAtIndex n) := by
  obtain h | rfl := h
  · exact readBytes_of_le h
  · rfl

/-- The bytes written end within memory when the highest address exists. -/
theorem bcdDigits_in {s : State} (b : Byte) (h : s.base + 2 ≤ Config.maxAddr) :
    s.base + (bcdDigits b).length ≤ Config.memSize := Nat.succ_le_succ h

theorem regsUpTo_in {s : State} {x : RegIdx} (h : s.base + x.val ≤ Config.maxAddr) :
    s.base + (s.regsUpTo x).length ≤ Config.memSize := by
  rw [State.regsUpTo_length]
  exact Nat.succ_le_succ h

/-- The rows of a sprite end within memory when the highest address exists, and need none when there are none. -/
theorem spriteRows_in {s : State} {n : Nibble} (h : n.toNat = 0 ∨ s.base + n.toNat - 1 ≤ Config.maxAddr) :
    s.base + n.toNat ≤ Config.memSize ∨ n.toNat = 0 := by
  simp only [Config.memSize, Config.maxAddr] at *
  omega

section
variable {s : State} {x : RegIdx}

theorem exec_storeBcd_in (h : s.base + 2 ≤ Config.maxAddr) :
    exec (.storeBcd x) s = .next (s.stored (bcdDigits (s.reg x))) := by
  rw [exec_storeBcd, withRange_in (.inl (Nat.succ_le_succ h)), writeBytes_of_le (bcdDigits_in _ h)]
  rfl

theorem exec_storeRegs_in (h : s.base + x.val ≤ Config.maxAddr) :
    exec (.storeRegs x) s = .next (s.stored (s.regsUpTo x)) := by
  rw [exec_storeRegs, withRange_in (.inl (Nat.succ_le_succ h)), writeBytes_of_le (regsUpTo_in h)]
  rfl

theorem exec_loadRegs_in (h : s.base + x.val ≤ Config.maxAddr) :
    exec (.loadRegs x) s = .next (s.setRegsFrom 0 (s.bytesAtIndex (x.val + 1))) := by
  rw [exec_loadRegs, execLoadRegs, withRange_in (.inl (Nat.succ_le_succ h)), readBytes_base (.inl (Nat.succ_le_succ h))]

theorem exec_drawSprite_in {y : RegIdx} {n : Nibble} (h : n.toNat = 0 ∨ s.base + n.toNat - 1 ≤ Config.maxAddr) :
    exec (.drawSprite x y n) s =
      .next (s.drawRows (s.reg x).toNat (s.reg y).toNat (s.bytesAtIndex n.toNat)) := by
  rw [exec_drawSprite, execDrawSprite, withRange_in (spriteRows_in h), readBytes_base (spriteRows_in h)]

end

/-- A stored byte is read back at its address. -/
theorem read_stored {s : State} {bs : List Byte} (hwf : Memory.wf s.mem = true)
    (h : s.base + bs.length ≤ Config.memSize) {k : Nat} (hk : k < bs.length) :
    Memory.read (s.stored bs).mem (s.base + k) = bs[k] :=
  Memory.read_copy_inside h hwf hk

theorem keeps_stored (s : State) (bs : List Byte) :
    KeepsAllBut (fun p => ∃ a, s.base ≤ a ∧ a < s.base + bs.length ∧ p = .byte a) s (s.stored bs) :=
  keeps_copy s s.base bs

/-- A number that is no greater than a byte fits one. -/
theorem toNat_ofNat_of_le_byte {b : Byte} {d : Nat} (h : d ≤ b.toNat) : (BitVec.ofNat 8 d).toNat = d :=
  Nat.mod_eq_of_lt (h.trans_lt b.isLt)

/-- Settles O42: the three digits are stored from `I` up. -/
theorem storeBcdWritesThreeDigits : Obligations.StoreBcdWritesThreeDigits := by
  intro x s hwf hin
  have read (k : Nat) (hk : k < 3) := read_stored hwf (bcdDigits_in (s.reg x) hin) hk
  refine ⟨_, exec_storeBcd_in hin, ?hundreds, ?tens, ?ones, keeps_stored s (bcdDigits (s.reg x))⟩
  case hundreds => exact (congrArg _ (read 0 (by decide))).trans (toNat_ofNat_of_le_byte (Nat.div_le_self _ _))
  case tens =>
    exact (congrArg _ (read 1 (by decide))).trans
      (toNat_ofNat_of_le_byte ((Nat.mod_le _ _).trans (Nat.div_le_self _ _)))
  case ones => exact (congrArg _ (read 2 (by decide))).trans (toNat_ofNat_of_le_byte (Nat.mod_le _ _))

/-- Settles O43: `V[0..x]` are stored from `I` up. -/
theorem storeRegsWritesTheRange : Obligations.StoreRegsWritesTheRange := by
  intro x s hwf hin
  have hlen := State.regsUpTo_length s x
  refine ⟨_, exec_storeRegs_in hin, fun k hk => ?_, (keeps_stored s _).mono ?_⟩
  · have : k.val ≤ x.val := hk
    rw [read_stored hwf (regsUpTo_in hin) (by omega), State.regsUpTo_getElem s x _ k.isLt]
  · rintro _ ⟨a, hlow, hhigh, rfl⟩
    exact ⟨a, hlow, by omega, rfl⟩

/-- Settles O44: the bytes from `I` up are written to `V[0..x]`. -/
theorem loadRegsReadsTheRange : Obligations.LoadRegsReadsTheRange := by
  intro x s hin
  have hlen := length_bytesAtIndex s (x.val + 1)
  refine ⟨_, exec_loadRegs_in hin, fun k hk => ?_, (keeps_setRegsFrom s (by omega)).mono ?_⟩
  · have : k.val ≤ x.val := hk
    rw [State.reg_setRegsFrom s (by omega), dif_pos (by omega), getElem_bytesAtIndex, Nat.sub_zero]
  · rintro _ ⟨k, hk, rfl⟩
    exact ⟨k, Fin.le_def.mpr (by omega), rfl⟩

/-! ### With the range past the end -/

section
variable {s : State} {x : RegIdx}

theorem exec_storeBcd_out (h : Config.maxAddr < s.base + 2) :
    exec (.storeBcd x) s = raiseIn (.storeBcd x) .memOutOfRange (s.base + 2) s := by
  rw [exec_storeBcd, withRange_out (by decide) h]
  rfl

theorem exec_storeRegs_out (h : Config.maxAddr < s.base + x.val) :
    exec (.storeRegs x) s = raiseIn (.storeRegs x) .memOutOfRange (s.base + x.val) s := by
  rw [exec_storeRegs, withRange_out (by omega) h]
  rfl

theorem exec_loadRegs_out (h : Config.maxAddr < s.base + x.val) :
    exec (.loadRegs x) s = raiseIn (.loadRegs x) .memOutOfRange (s.base + x.val) s := by
  rw [exec_loadRegs, execLoadRegs, withRange_out (by omega) h]
  rfl

theorem exec_drawSprite_out {y : RegIdx} {n : Nibble} (hn : 1 ≤ n.toNat)
    (h : Config.maxAddr < s.base + n.toNat - 1) :
    exec (.drawSprite x y n) s = raiseIn (.drawSprite x y n) .memOutOfRange (s.base + n.toNat - 1) s := by
  rw [exec_drawSprite, execDrawSprite, withRange_out hn h]

end

/-- Settles O45: each of the four instructions raises the fault before it touches a byte. -/
theorem dataAccessPastTheEndFaults : Obligations.DataAccessPastTheEndFaults := by
  intro i s hi running out access
  have raises : exec i s = raiseIn i .memOutOfRange hi s := by
    obtain ⟨x, y, n, rfl, hn, rfl⟩ | ⟨x, rfl, rfl⟩ | ⟨x, rfl | rfl, rfl⟩ := access
    · exact exec_drawSprite_out hn out
    · exact exec_storeBcd_out out
    · exact exec_storeRegs_out out
    · exact exec_loadRegs_out out
  rw [raises]
  exact raiseIn_spec running i _ _

end Sys2Proof
end

section
/-! PROOFS. Sprites and the framebuffer view (44_display.md R151 to R153, 60_exceptions.md R185). -/

namespace Sys2Proof

open Machine

/-- The places drawn are those the sprite covers, as the sums modulo width and height say. -/
theorem mem_spritePixels_iff_covers {s : State} {x y : RegIdx} {n : Nibble} {p : Pixel} :
    p ∈ spritePixels (s.reg x).toNat (s.reg y).toNat 0 (s.bytesAtIndex n.toNat) ↔ SpriteCovers s x y n p := by
  simp only [mem_spritePixels, length_bytesAtIndex, getElem_bytesAtIndex, spriteBit, pixelAt, Prod.ext_iff, Fin.ext_iff,
    Nat.zero_add, SpriteCovers]
  constructor
  · rintro ⟨row, hrow, col, hcol, hbit, hx, hy⟩
    exact ⟨row, col, hrow, hcol, hbit, hx, hy⟩
  · rintro ⟨row, col, hrow, hcol, hbit, hx, hy⟩
    exact ⟨row, hrow, col, hcol, hbit, hx, hy⟩

theorem keeps_drawRows (s : State) (x0 y0 : Nat) (rows : List Byte) :
    KeepsAllBut (fun p => p = .reg 15 ∨ ∃ q, p = .cell q) s (s.drawRows x0 y0 rows) :=
  ((keeps_fb s _).mono fun _ => .inr).trans ((keeps_setFlag _ _).mono fun _ => .inl)

/-- Settles O47: no place comes twice, so flipping them one after another is flipping each covered cell once. -/
theorem drawSpriteIsXorWithCollision : Obligations.DrawSpriteIsXorWithCollision := by
  intro x y n s hin
  have rows : (s.bytesAtIndex n.toNat).length ≤ 32 := by rw [length_bytesAtIndex]; omega
  obtain ⟨hcell, hflag⟩ := s.drawRows_spec (s.reg x).toNat (s.reg y).toNat rows
  refine ⟨_, exec_drawSprite_in hin, fun p hp => ?_, fun p hp => ?_, ?_, fun unset => ?_,
    keeps_drawRows s _ _ _⟩
  · rw [hcell, decide_eq_true (mem_spritePixels_iff_covers.mpr hp), Bool.xor_true]
  · rw [hcell, decide_eq_false (mem_spritePixels_iff_covers.not.mpr hp), Bool.xor_false]
  · rintro ⟨p, hp, set⟩
    exact hflag.trans (congrArg flagByte (List.any_eq_true.mpr ⟨p, mem_spritePixels_iff_covers.mpr hp, set⟩))
  · refine hflag.trans (congrArg flagByte (List.any_eq_false.mpr fun p hp => ?_))
    exact Bool.not_eq_true _ ▸ unset p (mem_spritePixels_iff_covers.mp hp)

/-- A draw writes nothing that the places of the same sprite come from, unless `VF` is one of its coordinates. -/
theorem spriteCovers_after_draw {s t : State} {x y : RegIdx}
    (keeps : KeepsAllBut (fun p => p = .reg 15 ∨ ∃ q, p = .cell q) s t) (hx : x ≠ 15) (hy : y ≠ 15) (n : Nibble)
    (p : Pixel) : SpriteCovers t x y n p ↔ SpriteCovers s x y n p := by
  have bytes (a : Nat) : Memory.read t.mem a = Memory.read s.mem a := keeps (.byte a) (by simp)
  have index : t.index = s.index := keeps .index (by simp)
  have column : t.reg x = s.reg x := keeps (.reg x) (by simpa using hx)
  have row : t.reg y = s.reg y := keeps (.reg y) (by simpa using hy)
  simp only [SpriteCovers, State.base, bytes, index, column, row]

/-- Settles O48: both draws flip the same places; a covered cell is set when the second draw meets it exactly if the
first one set it. -/
theorem drawingTwiceRestoresTheScreen : Obligations.DrawingTwiceRestoresTheScreen := by
  intro x y n s t hx hy hin h
  obtain ⟨_, ht, flipped, kept, -, -, keeps⟩ := drawSpriteIsXorWithCollision x y n s hin
  obtain rfl := Host.Outcome.next.inj (h.symm.trans ht)
  have index : t.index = s.index := keeps .index (by simp)
  obtain ⟨u, hu, flipped', kept', collision, noCollision, -⟩ :=
    drawSpriteIsXorWithCollision x y n t (by rwa [State.base, index])
  simp only [spriteCovers_after_draw keeps hx hy] at flipped' kept' collision noCollision
  refine ⟨u, hu, fun p => ?_, fun one => ?_, fun ⟨p, unset, set⟩ => ?_⟩
  · by_cases covered : SpriteCovers s x y n p
    · rw [flipped' p covered, flipped p covered, Bool.not_not]
    · rw [kept' p covered, kept p covered]
  · by_contra none
    have zero : u.reg 15 = 0 := noCollision fun p covered => by
      by_contra set
      rw [Bool.not_eq_false] at set
      exact none ⟨p, by rwa [flipped p covered, Bool.not_eq_true'] at set, set⟩
    exact absurd (one.symm.trans zero) (by decide)
  · refine collision ⟨p, ?_, set⟩
    by_contra uncovered
    rw [kept p uncovered, unset] at set
    exact Bool.false_ne_true set

/-! ### The view (R185) -/

theorem framebufferView_eq_flatten (s : State) : s.framebufferView = s.fb.flatten.toList := by
  simp only [State.framebufferView, Vector.flatten, Vector.toList, Array.toList_flatten, Array.toList_map, List.map_map,
    List.flatMap_def]
  rfl

/-- Settles O49: the view is the grid flattened row by row. -/
theorem framebufferViewIsIndexedByRow : Obligations.FramebufferViewIsIndexedByRow := by
  intro s
  rw [framebufferView_eq_flatten]
  refine ⟨Vector.length_toList, fun ⟨px, py⟩ => ?_⟩
  have hx : px.val < 64 := px.isLt
  have hy : py.val < 32 := py.isLt
  have index : py.val * 64 + px.val < 32 * 64 := by omega
  have row : (py.val * 64 + px.val) / 64 = py.val := by omega
  have column : (py.val * 64 + px.val) % 64 = px.val := by omega
  simp only [Vector.getElem?_toList, Vector.getElem?_eq_getElem index, Vector.getElem_flatten, row, column]
  rfl

end Sys2Proof
end

section
/-! PROOFS. What any instruction can do to the state: `Effect` says it once, and the writers of each part, the safety of
a step and its invariant are read off it. -/

namespace Sys2Proof

open Machine

/-! ### The effects -/

/-- The effects an instruction can have, each with the instructions that have it. A transfer of control stays within the
reach of `PC` when it starts from an advanced `PC` (10_state.md R25); a store stays in memory (R59); a fault is one the
instruction can raise (60_exceptions.md R170). -/
inductive Effect (s : State) : Instr → State → Prop
  | clear : Effect s .clearScreen { s with fb := Framebuffer.clear }
  | draw (x y : RegIdx) (n : Nibble) (fb : Framebuffer) (c : Bool) :
    Effect s (.drawSprite x y n) ({ s with fb := fb }.setFlag c)
  | transfer (i : Instr) (w : Word) (reach : 2 ≤ s.pc.toNat → s.pc.toNat ≤ 4096 → w.toNat ≤ 4350) :
    Effect s i (s.setPc w)
  | called (nnn : Addr) (k : Fin Config.stackDepth) : Effect s (.call nnn) (s.called k nnn)
  | returned (k : Fin Config.stackDepth) : Effect s .returnSub (s.returned k)
  | reg (i : Instr) (x : RegIdx) (b : Byte) (names : NamesDestination x i) : Effect s i (s.setReg x b)
  | regs (x : RegIdx) (bs : List Byte) (len : bs.length = x.val + 1) :
    Effect s (.loadRegs x) { s with v := (s.setRegsFrom 0 bs).v }
  | flag (i : Instr) (x : RegIdx) (r : Byte) (c : Bool) (names : NamesDestination x i) (flags : WritesFlag i) :
    Effect s i (s.setResultThenFlag x r c)
  | random (x : RegIdx) (nn b : Byte) : Effect s (.randomAnd x nn) (s.takeRandom.2.setReg x b)
  | index (i : Instr) (w : Word)
    (writer : (∃ nnn, i = .loadIndex nnn) ∨ (∃ x, i = .addIndex x) ∨ ∃ x, i = .fontAddress x) :
    Effect s i (s.setIndex w)
  | delay (x : RegIdx) : Effect s (.setDelay x) (s.setDelay (s.reg x))
  | sound (x : RegIdx) : Effect s (.setSound x) (s.setSound (s.reg x))
  | stored (i : Instr) (bs : List Byte) (writer : (∃ x, i = .storeBcd x) ∨ ∃ x, i = .storeRegs x)
    (size : s.base + bs.length ≤ Config.memSize) : Effect s i (s.stored bs)
  | raised (i : Instr) (code : FaultCode) (info : Nat) (can : canRaise code i) (fits : infoFits code info) :
    Effect s i { s with fault := (raise code (s.pc - 2) (some (encode i)) info s).fault }

/-! ### Every instruction has one of them -/

/-- The answer is a next state that an effect of the instruction leads to. -/
def Answers (s : State) (i : Instr) : Prop := ∃ t, exec i s = .next t ∧ Effect s i t

section
variable {s : State} {i : Instr}

theorem answers_transfer {w : Word} (h : exec i s = .next (s.setPc w))
    (reach : 2 ≤ s.pc.toNat → s.pc.toNat ≤ 4096 → w.toNat ≤ 4350) : Answers s i :=
  ⟨_, h, .transfer i w reach⟩

theorem answers_skipIf {c : Bool} (h : exec i s = .next (s.skipIf c)) : Answers s i := by
  rw [skipIf_eq] at h
  refine answers_transfer h fun _ top => ?_
  split <;> bv_omega

theorem answers_reg {x : RegIdx} {b : Byte} (h : exec i s = .next (s.setReg x b))
    (names : NamesDestination x i := by simp [NamesDestination]) : Answers s i := ⟨_, h, .reg i x b names⟩

theorem answers_flag {x : RegIdx} {r : Byte} {c : Bool} (h : exec i s = .next (s.setResultThenFlag x r c))
    (names : NamesDestination x i := by simp [NamesDestination]) (flags : WritesFlag i := by simp [WritesFlag]) :
    Answers s i := ⟨_, h, .flag i x r c names flags⟩

theorem answers_index {w : Word} (h : exec i s = .next (s.setIndex w))
    (writer : (∃ nnn, i = .loadIndex nnn) ∨ (∃ x, i = .addIndex x) ∨ ∃ x, i = .fontAddress x) : Answers s i :=
  ⟨_, h, .index i w writer⟩

theorem answers_raiseIn {code : FaultCode} {info : Nat} (h : exec i s = raiseIn i code info s) (can : canRaise code i)
    (fits : infoFits code info) : Answers s i := by
  rw [raiseIn, raise_eq] at h
  exact ⟨_, h, .raised i code info can fits⟩

end

theorem answers_call (s : State) (nnn : Addr) : Answers s (.call nnn) := by
  obtain ⟨k, free⟩ | full := free_or_full s
  · exact ⟨_, exec_call_of_free free nnn, .called nnn k⟩
  · exact answers_raiseIn (exec_call_full full nnn) ⟨nnn, rfl⟩ rfl

theorem answers_returnSub (s : State) : Answers s .returnSub := by
  obtain empty | ⟨k, entry⟩ := empty_or_entry s
  · exact answers_raiseIn (exec_returnSub_empty empty) rfl rfl
  · exact ⟨_, exec_returnSub_of_entry entry, .returned k⟩

theorem answers_jumpOffset (s : State) (nnn : Addr) : Answers s (.jumpOffset nnn) := by
  refine answers_transfer (exec_jumpOffset nnn s) fun _ _ => ?_
  rw [toNat_extByte_add_extAddr]
  omega

theorem answers_waitKey (s : State) (x : RegIdx) : Answers s (.waitKey x) := by
  cases h : s.leastKey with
  | some k => exact answers_reg (exec_waitKey_of_least h x)
  | none => exact answers_transfer (exec_waitKey_of_none h x) fun low top => by bv_omega

/-- Either key skip, with a key index or with none. -/
theorem answers_keySkip {s : State} {i : Instr} {x : RegIdx} (hi : i = .skipIfKeyDown x ∨ i = .skipIfKeyUp x) :
    Answers s i := by
  by_cases key : (s.reg x).toNat < 16
  · obtain rfl | rfl := hi
    · exact answers_skipIf (exec_skipIfKeyDown_of_key (k := ⟨_, key⟩) rfl)
    · exact answers_skipIf (exec_skipIfKeyUp_of_key (k := ⟨_, key⟩) rfl)
  · have can : canRaise .keyIndexOutOfRange i := hi.imp (⟨x, ·⟩) (⟨x, ·⟩)
    have fits : infoFits .keyIndexOutOfRange (s.reg x).toNat := ⟨by omega, by have := (s.reg x).isLt; omega⟩
    exact answers_raiseIn (exec_keySkip_out hi (by omega)) can fits

theorem answers_storeBcd (s : State) (x : RegIdx) : Answers s (.storeBcd x) := by
  obtain hin | out := le_or_gt (s.base + 2) Config.maxAddr
  · exact ⟨_, exec_storeBcd_in hin, .stored _ _ (.inl ⟨x, rfl⟩) (bcdDigits_in _ hin)⟩
  · exact answers_raiseIn (exec_storeBcd_out out) (.inr (.inl ⟨x, rfl⟩)) out

theorem answers_storeRegs (s : State) (x : RegIdx) : Answers s (.storeRegs x) := by
  obtain hin | out := le_or_gt (s.base + x.val) Config.maxAddr
  · exact ⟨_, exec_storeRegs_in hin, .stored _ _ (.inr ⟨x, rfl⟩) (regsUpTo_in hin)⟩
  · exact answers_raiseIn (exec_storeRegs_out out) (.inr (.inr (.inl ⟨x, rfl⟩))) out

theorem answers_loadRegs (s : State) (x : RegIdx) : Answers s (.loadRegs x) := by
  obtain hin | out := le_or_gt (s.base + x.val) Config.maxAddr
  · have loaded := exec_loadRegs_in hin
    rw [State.setRegsFrom_eq] at loaded
    exact ⟨_, loaded, .regs x _ (length_bytesAtIndex s _)⟩
  · exact answers_raiseIn (exec_loadRegs_out out) (.inr (.inr (.inr ⟨x, rfl⟩))) out

theorem answers_drawSprite (s : State) (x y : RegIdx) (n : Nibble) : Answers s (.drawSprite x y n) := by
  by_cases hin : n.toNat = 0 ∨ s.base + n.toNat - 1 ≤ Config.maxAddr
  · exact ⟨_, exec_drawSprite_in hin, .draw x y n _ _⟩
  · obtain ⟨rows, out⟩ := not_or.mp hin
    have out := Nat.lt_of_not_le out
    exact answers_raiseIn (exec_drawSprite_out (Nat.pos_of_ne_zero rows) out) (.inl ⟨x, y, n, rfl⟩) out

/-- Every instruction, from every state, answers a next state by one of its effects. -/
theorem exec_answers (i : Instr) (s : State) : Answers s i := by
  cases i with
  | clearScreen => exact ⟨_, exec_clearScreen s, .clear⟩
  | returnSub => exact answers_returnSub s
  | jump nnn =>
    exact answers_transfer (exec_jump nnn s) fun _ _ => by rw [toNat_extAddr]; omega
  | call nnn => exact answers_call s nnn
  | jumpOffset nnn => exact answers_jumpOffset s nnn
  | skipIfEqImm x nn => exact answers_skipIf (exec_skipIfEqImm x nn s)
  | skipIfNeImm x nn => exact answers_skipIf (exec_skipIfNeImm x nn s)
  | skipIfEqReg x y => exact answers_skipIf (exec_skipIfEqReg x y s)
  | skipIfNeReg x y => exact answers_skipIf (exec_skipIfNeReg x y s)
  | skipIfKeyDown x => exact answers_keySkip (.inl rfl)
  | skipIfKeyUp x => exact answers_keySkip (.inr rfl)
  | waitKey x => exact answers_waitKey s x
  | loadImm x nn => exact answers_reg (exec_loadImm x nn s)
  | addImm x nn => exact answers_reg (exec_addImm x nn s)
  | move x y => exact answers_reg (exec_move x y s)
  | orReg x y => exact answers_reg (exec_orReg x y s)
  | andReg x y => exact answers_reg (exec_andReg x y s)
  | xorReg x y => exact answers_reg (exec_xorReg x y s)
  | getDelay x => exact answers_reg (exec_getDelay x s)
  | addReg x y => exact answers_flag (exec_addReg x y s)
  | subReg x y => exact answers_flag (exec_subReg x y s)
  | shiftRight x y => exact answers_flag (exec_shiftRight x y s)
  | subRegRev x y => exact answers_flag (exec_subRegRev x y s)
  | shiftLeft x y => exact answers_flag (exec_shiftLeft x y s)
  | randomAnd x nn => exact ⟨_, exec_randomAnd x nn s, .random x nn _⟩
  | setDelay x => exact ⟨_, exec_setDelay x s, .delay x⟩
  | setSound x => exact ⟨_, exec_setSound x s, .sound x⟩
  | loadIndex nnn => exact answers_index (exec_loadIndex nnn s) (.inl ⟨nnn, rfl⟩)
  | addIndex x => exact answers_index (exec_addIndex x s) (.inr (.inl ⟨x, rfl⟩))
  | fontAddress x => exact answers_index (exec_fontAddress x s) (.inr (.inr ⟨x, rfl⟩))
  | storeBcd x => exact answers_storeBcd s x
  | storeRegs x => exact answers_storeRegs s x
  | loadRegs x => exact answers_loadRegs s x
  | drawSprite x y n => exact answers_drawSprite s x y n

/-- What an instruction answered came about by one of its effects. -/
theorem effect_of_exec {i : Instr} {s t : State} (h : exec i s = .next t) : Effect s i t := by
  obtain ⟨u, hu, effect⟩ := exec_answers i s
  obtain rfl := Host.Outcome.next.inj (hu.symm.trans h)
  exact effect

end Sys2Proof
end

section
/-! PROOFS. The writers of each part of the state (10_state.md), read off the effects. -/

namespace Sys2Proof

open Machine

/-! ### Parts no instruction writes, or one instruction alone -/

section
variable {s t : State} {i : Instr} (effect : Effect s i t)
include effect

theorem Effect.keys_eq : t.keys = s.keys := by cases effect <;> rfl

theorem Effect.diagnostics_eq : t.diagnostics = s.diagnostics := by cases effect <;> rfl

theorem Effect.draws_eq (other : ∀ x nn, i ≠ .randomAnd x nn) : t.draws = s.draws := by
  cases effect with
  | random x nn b => exact absurd rfl (other x nn)
  | _ => rfl

theorem Effect.index_eq (other₁ : ∀ nnn, i ≠ .loadIndex nnn) (other₂ : ∀ x, i ≠ .addIndex x)
    (other₃ : ∀ x, i ≠ .fontAddress x) : t.index = s.index := by
  cases effect with
  | index _ w writer =>
    obtain ⟨nnn, rfl⟩ | ⟨x, rfl⟩ | ⟨x, rfl⟩ := writer
    · exact absurd rfl (other₁ nnn)
    · exact absurd rfl (other₂ x)
    · exact absurd rfl (other₃ x)
  | _ => rfl

theorem Effect.stack_eq (other₁ : ∀ nnn, i ≠ .call nnn) (other₂ : i ≠ .returnSub) :
    t.sp = s.sp ∧ t.stack = s.stack := by
  cases effect with
  | called nnn k => exact absurd rfl (other₁ nnn)
  | returned k => exact absurd rfl other₂
  | _ => exact ⟨rfl, rfl⟩

theorem Effect.fb_eq (other₁ : i ≠ .clearScreen) (other₂ : ∀ x y n, i ≠ .drawSprite x y n) : t.fb = s.fb := by
  cases effect with
  | clear => exact absurd rfl other₁
  | draw x y n fb c => exact absurd rfl (other₂ x y n)
  | _ => rfl

theorem Effect.mem_eq (other₁ : ∀ x, i ≠ .storeBcd x) (other₂ : ∀ x, i ≠ .storeRegs x) : t.mem = s.mem := by
  cases effect with
  | stored _ bs writer size =>
    obtain ⟨x, rfl⟩ | ⟨x, rfl⟩ := writer
    · exact absurd rfl (other₁ x)
    · exact absurd rfl (other₂ x)
  | _ => rfl

/-! ### Registers (R20 to R22) -/

/-- A register that changed is named, or is the flag of a flag writer. -/
theorem Effect.reg_eq_or_writer (k : RegIdx) :
    t.reg k = s.reg k ∨ NamesDestination k i ∨ (k = 15 ∧ WritesFlag i) := by
  cases effect with
  | draw x y n fb c =>
    by_cases hk : k = flagReg
    · exact .inr (.inr ⟨hk, by simp [WritesFlag]⟩)
    · exact .inl ((State.reg_setFlag _ k c).trans (if_neg hk))
  | reg _ x b names =>
    by_cases hk : k = x
    · exact .inr (.inl (hk ▸ names))
    · exact .inl ((State.reg_setReg s x k b).trans (if_neg hk))
  | random x nn b =>
    by_cases hk : k = x
    · exact .inr (.inl (by simp [NamesDestination, hk]))
    · exact .inl ((State.reg_setReg _ x k b).trans (if_neg hk))
  | flag _ x r c names flags =>
    by_cases hf : k = flagReg
    · exact .inr (.inr ⟨hf, flags⟩)
    · by_cases hk : k = x
      · exact .inr (.inl (hk ▸ names))
      · exact .inl ((State.reg_setResultThenFlag s x k r c).trans ((if_neg hf).trans (if_neg hk)))
  | regs x bs len =>
    by_cases hk : k ≤ x
    · exact .inr (.inl (by simp [NamesDestination, hk]))
    · have past : ¬ k.val < bs.length := by rw [Fin.le_def] at hk; omega
      exact .inl ((State.reg_setRegsFrom s (k := 0) (by omega) k).trans (dif_neg fun h => past h.2))
  | _ => exact .inl rfl

end

theorem toNat_flagByte_le_one (c : Bool) : (flagByte c).toNat ≤ 1 := by cases c <;> decide

/-- A result and its flag leave 0 or 1 in `VF`. -/
theorem flag_le_one_of_resultThenFlag {i : Instr} {s t : State} {x : RegIdx} {r : Byte} {c : Bool}
    (h : exec i s = .next t) (hi : exec i s = .next (s.setResultThenFlag x r c)) : (t.reg 15).toNat ≤ 1 := by
  obtain rfl := Host.Outcome.next.inj (hi.symm.trans h)
  rw [State.reg_setResultThenFlag]
  exact toNat_flagByte_le_one c

/-- A draw that raises no fault leaves the collision in `VF`. -/
theorem flag_le_one_of_draw {x y : RegIdx} {n : Nibble} {s t : State} (h : exec (.drawSprite x y n) s = .next t)
    (noFault : t.fault = s.fault) (running : Running s) : (t.reg 15).toNat ≤ 1 := by
  by_cases hin : n.toNat = 0 ∨ s.base + n.toNat - 1 ≤ Config.maxAddr
  · obtain rfl := Host.Outcome.next.inj ((exec_drawSprite_in hin).symm.trans h)
    rw [State.drawRows, State.reg_setFlag]
    exact toNat_flagByte_le_one _
  · obtain ⟨rows, out⟩ := not_or.mp hin
    obtain ⟨u, hu, hfault, -⟩ := raiseIn_spec running (.drawSprite x y n) .memOutOfRange (s.base + n.toNat - 1)
    rw [exec_drawSprite_out (Nat.pos_of_ne_zero rows) (Nat.lt_of_not_le out)] at h
    obtain rfl := Host.Outcome.next.inj (hu.symm.trans h)
    rw [noFault, running] at hfault
    cases hfault

theorem flag_le_one_of_writesFlag {i : Instr} {s t : State} (h : exec i s = .next t) (flags : WritesFlag i)
    (noFault : t.fault = s.fault) (running : Running s) : (t.reg 15).toNat ≤ 1 := by
  obtain ⟨x, y, rfl⟩ | ⟨x, y, rfl⟩ | ⟨x, y, rfl⟩ | ⟨x, y, rfl⟩ | ⟨x, y, rfl⟩ | ⟨x, y, n, rfl⟩ := flags
  · exact flag_le_one_of_resultThenFlag h (exec_addReg x y s)
  · exact flag_le_one_of_resultThenFlag h (exec_subReg x y s)
  · exact flag_le_one_of_resultThenFlag h (exec_subRegRev x y s)
  · exact flag_le_one_of_resultThenFlag h (exec_shiftRight x y s)
  · exact flag_le_one_of_resultThenFlag h (exec_shiftLeft x y s)
  · exact flag_le_one_of_draw h noFault running

/-! ### The statements -/

/-- Settles O18: no effect writes a key or the history, and the timers and the random port have one writer each. -/
theorem timersAndKeysHaveTheirWriters : Obligations.TimersAndKeysHaveTheirWriters := by
  intro i s t h
  have effect := effect_of_exec h
  obtain ⟨delay, sound⟩ := exec_timers_eq_of_not_writer h
  exact ⟨fun k => congrArg (·[k]) effect.keys_eq, effect.diagnostics_eq, delay, sound, effect.draws_eq⟩

/-- Settles O19: each of these parts is changed by the effects of its own instructions alone. -/
theorem indexStackScreenMemoryHaveTheirWriters : Obligations.IndexStackScreenMemoryHaveTheirWriters := by
  intro i s t h
  have effect := effect_of_exec h
  exact ⟨effect.index_eq, effect.stack_eq, fun o o' p => by rw [effect.fb_eq o o'],
    fun o o' a => by rw [effect.mem_eq o o']⟩

/-- Settles O20: the effects write registers that are named, and the flag last. -/
theorem registersHaveTheirWriters : Obligations.RegistersHaveTheirWriters := by
  intro i s t h
  exact ⟨fun k changed => ((effect_of_exec h).reg_eq_or_writer k).resolve_left changed, flag_le_one_of_writesFlag h⟩

end Sys2Proof
end

section
/-! PROOFS. No instruction reads `ST` (10_state.md R28): `exec` commutes with replacing `ST`, operation by operation. -/

namespace Sys2Proof

open Machine

/-- A result with `ST` replaced in its next state. -/
def resultWithSound (b : Byte) : Result → Result
  | .next t => .next (t.setSound b)
  | .fault f => .fault f
  | .refused r => .refused r

section
variable (b : Byte) (s : State)

theorem base_setSound : (s.setSound b).base = s.base := rfl

theorem raiseIn_setSound (i : Instr) (code : FaultCode) (info : Nat) :
    raiseIn i code info (s.setSound b) = resultWithSound b (raiseIn i code info s) := by
  unfold raiseIn
  cases h : s.fault with
  | none => rw [raise_running h, raise_running (s := s.setSound b) h]; rfl
  | some r => rw [raise_latched h, raise_latched (s := s.setSound b) h]; rfl

theorem skipIf_setSound (c : Bool) : (s.setSound b).skipIf c = (s.skipIf c).setSound b := by
  rw [skipIf_eq, skipIf_eq]
  rfl

theorem setRegsFrom_setSound (k : Nat) (bs : List Byte) :
    (s.setSound b).setRegsFrom k bs = (s.setRegsFrom k bs).setSound b := by
  induction bs generalizing s k with
  | nil => rfl
  | cons c bs ih => exact ih (s.setReg (Fin.ofNat 16 k) c) (k + 1)

theorem readBytes_setSound (a n : Nat) : readBytes (s.setSound b) a n = readBytes s a n := by
  induction n generalizing a with
  | zero => rfl
  | succ n ih =>
    rw [readBytes, readBytes, ih]
    rfl

theorem writeBytes_setSound (a : Nat) (bs : List Byte) :
    ofExcept (writeBytes (s.setSound b) a bs) = resultWithSound b (ofExcept (writeBytes s a bs)) := by
  induction bs generalizing s a with
  | nil => rfl
  | cons c bs ih =>
    rw [writeBytes, writeBytes, memWrite, memWrite]
    by_cases ha : a ≤ Config.maxAddr
    · rw [if_pos ha, if_pos ha]
      exact ih { s with mem := Memory.write s.mem a c } (a + 1)
    · rw [if_neg ha, if_neg ha]
      rfl

end

section
variable {b : Byte} {s : State} {i : Instr}

theorem withRange_setSound {n : Nat} {e e' : Result} (he : e' = resultWithSound b e) :
    withRange i n (s.setSound b) e' = resultWithSound b (withRange i n s e) := by
  by_cases h : s.base + n ≤ Config.memSize ∨ n = 0
  · rw [withRange_in h, withRange_in (s := s.setSound b) h, he]
  · have out : 1 ≤ n ∧ Config.maxAddr < s.base + n - 1 := by simp only [Config.memSize, Config.maxAddr] at *; omega
    rw [withRange_out out.1 out.2, withRange_out (s := s.setSound b) out.1 out.2]
    exact raiseIn_setSound b s i _ _

theorem withKey_setSound {k : Byte} {e e' : Bool → Result} (he : ∀ down, e' down = resultWithSound b (e down)) :
    withKey i k (s.setSound b) e' = resultWithSound b (withKey i k s e) := by
  by_cases h : k.toNat < 16
  · rw [withKey_in h, withKey_in h]
    exact he _
  · rw [withKey_out h, withKey_out h]
    exact raiseIn_setSound b s i _ _

end

section
variable (b : Byte) (s : State)

theorem exec_call_setSound (nnn : Addr) : exec (.call nnn) (s.setSound b) = resultWithSound b (exec (.call nnn) s) := by
  obtain ⟨k, free⟩ | full := free_or_full s
  · rw [exec_call_of_free free, exec_call_of_free (s := s.setSound b) free]
    rfl
  · rw [exec_call_full full, exec_call_full (s := s.setSound b) full]
    exact raiseIn_setSound b s _ _ _

theorem exec_returnSub_setSound : exec .returnSub (s.setSound b) = resultWithSound b (exec .returnSub s) := by
  obtain empty | ⟨k, entry⟩ := empty_or_entry s
  · rw [exec_returnSub_empty empty, exec_returnSub_empty (s := s.setSound b) empty]
    exact raiseIn_setSound b s _ _ _
  · rw [exec_returnSub_of_entry entry, exec_returnSub_of_entry (s := s.setSound b) entry]
    rfl

theorem exec_waitKey_setSound (x : RegIdx) :
    exec (.waitKey x) (s.setSound b) = resultWithSound b (exec (.waitKey x) s) := by
  cases h : s.leastKey with
  | some k => rw [exec_waitKey_of_least h, exec_waitKey_of_least (s := s.setSound b) h]; rfl
  | none => rw [exec_waitKey_of_none h, exec_waitKey_of_none (s := s.setSound b) h]; rfl

/-- An instruction other than `set-sound` does to the state with `ST` replaced what it does to the state. -/
theorem exec_setSound_comm {i : Instr} (hi : ∀ x, i ≠ .setSound x) :
    exec i (s.setSound b) = resultWithSound b (exec i s) := by
  have skips (c : Bool) : (.next ((s.setSound b).skipIf c) : Result) = resultWithSound b (.next (s.skipIf c)) :=
    congrArg _ (skipIf_setSound b s c)
  cases i with
  | setSound x => exact absurd rfl (hi x)
  | call nnn => exact exec_call_setSound b s nnn
  | returnSub => exact exec_returnSub_setSound b s
  | waitKey x => exact exec_waitKey_setSound b s x
  | skipIfKeyDown x =>
    rw [exec_skipIfKeyDown, exec_skipIfKeyDown]
    exact withKey_setSound fun _ => skips _
  | skipIfKeyUp x =>
    rw [exec_skipIfKeyUp, exec_skipIfKeyUp]
    exact withKey_setSound fun _ => skips _
  | skipIfEqImm x nn | skipIfNeImm x nn | skipIfEqReg x y | skipIfNeReg x y => exact skips _
  | storeBcd x | storeRegs x => exact withRange_setSound (writeBytes_setSound b s _ _)
  | loadRegs x =>
    refine withRange_setSound ?_
    rw [base_setSound, readBytes_setSound]
    cases readBytes s s.base (x.val + 1) with
    | error f => rfl
    | ok bytes => exact congrArg _ (setRegsFrom_setSound b s 0 bytes)
  | drawSprite x y n =>
    refine withRange_setSound ?_
    rw [base_setSound, readBytes_setSound]
    cases readBytes s s.base n.toNat <;> rfl
  | _ => rfl

end

/-- Settles O21: `set-sound` overwrites what was replaced; every other instruction commutes with replacing `ST`. -/
theorem noInstructionReadsTheSoundTimer : Obligations.NoInstructionReadsTheSoundTimer := by
  intro i s t b h
  by_cases writer : ∃ x, i = .setSound x
  · obtain ⟨x, rfl⟩ := writer
    exact ⟨t, h, .refl _ t⟩
  · have comm := exec_setSound_comm b s (not_exists.mp writer)
    rw [h] at comm
    exact ⟨_, comm, keeps_setSound t b⟩

end Sys2Proof
end

section
/-! PROOFS. The step (40_control_flow.md R100): what each of its branches answers, and what every step can do. -/

namespace Sys2Proof

open Machine

/-! ### The branches of the step -/

theorem halted_eq_false {s : State} (running : Running s) : s.halted = false := by
  rw [State.halted, running, Option.isSome_none]

theorem halted_eq_true {s : State} (h : ¬ Running s) : s.halted = true := Option.isSome_iff_ne_none.mpr h

theorem step_of_halted {s : State} (h : ¬ Running s) : step s = .next s := by
  rw [step, cycle, if_pos (halted_eq_true h)]

section
variable {s : State} (running : Running s)
include running

theorem step_of_fetch_past (h : 4094 < s.pc.toNat) :
    step s = .next (raise .fetchOutOfRange s.pc none s.pc.toNat s) := by
  rw [step, cycle, halted_eq_false running, if_neg Bool.false_ne_true, if_pos h]

theorem step_of_fetched (h : s.pc.toNat ≤ 4094) : step s = runWord s (wordAtPc s) := by
  have hi : s.pc.toNat ≤ Config.maxAddr := by simp only [Config.maxAddr]; omega
  have lo : s.pc.toNat + 1 ≤ Config.maxAddr := by simp only [Config.maxAddr]; omega
  have fetched : fetchWord s = .ok (wordAtPc s) := by
    rw [fetchWord, memRead, memRead, if_pos hi, if_pos lo]
    rfl
  rw [step, cycle, halted_eq_false running, if_neg Bool.false_ne_true, if_neg (Nat.not_lt.mpr h), fetched]

theorem step_of_decoded {i : Instr} (h : s.pc.toNat ≤ 4094) (hi : decode (wordAtPc s) = .ok i) :
    step s = exec i s.advance := by
  rw [step_of_fetched running h, runWord, hi]

theorem step_of_rejected {e : DecodeReject} (h : s.pc.toNat ≤ 4094) (he : decode (wordAtPc s) = .error e) :
    step s = .next (s.unrecognized (wordAtPc s)) := by
  rw [step_of_fetched running h, runWord, he]

end

/-- Settles O7: the branch of a word that decodes. -/
theorem stepRunsTheDecodedInstruction : Obligations.StepRunsTheDecodedInstruction := fun _ _ running h hi =>
  step_of_decoded running h hi

/-- Settles O8: the branch of a rejected word, which advances and reports. -/
theorem unrecognizedWordIsADiagnosticNop : Obligations.UnrecognizedWordIsADiagnosticNop := fun s _ running h he =>
  have keeps : KeepsAllBut (fun p => p = .pc ∨ p = .diagnostics) s (s.unrecognized (wordAtPc s)) :=
    ((keeps_setPc s _).mono fun _ => .inl).trans ((keeps_diag _ _ _).mono fun _ => .inr)
  ⟨_, step_of_rejected running h he, rfl, rfl, keeps⟩

/-- Settles O10: the branch of a fetch past the end. -/
theorem fetchPastTheEndFaults : Obligations.FetchPastTheEndFaults := fun s running h =>
  ⟨_, step_of_fetch_past running h, by rw [raise_running running], keeps_raise s _ _ _ _⟩

/-! ### Steps that change nothing -/

theorem run_succ_of_step {M : Host.Core} {s t : M.State} (h : M.step s = .next t) (n : Nat) :
    M.run (n + 1) s = M.run n t := by
  simp only [Host.Core.run, h]

theorem run_of_step_eq_self {s : State} (h : step s = .next s) (n : Nat) : core.run n s = .next s := by
  induction n with
  | zero => rfl
  | succ n ih => exact (run_succ_of_step (M := core) h n).trans ih

/-- Settles O22: the jump undoes the fetch advance. -/
theorem finishedProgramStaysPut : Obligations.FinishedProgramStaysPut := by
  rintro s ⟨running, h, nnn, hi, target⟩
  rw [step_of_decoded running h hi, exec_jump, target]
  rfl

/-- Settles O55: a `wait-key` that finds no key undoes the fetch advance, so its state is a fixed point of the step. -/
theorem waitingChangesNothing : Obligations.WaitingChangesNothing := by
  intro s x n running h hi none
  refine run_of_step_eq_self ?_ n
  have noKey : s.advance.leastKey = .none := State.leastKey_eq_none.mpr none
  rw [step_of_decoded running h hi, exec_waitKey_of_none noKey, State.advance_pc, BitVec.add_sub_cancel]
  rfl

/-! ### What a step can do -/

/-- The four branches of the step, each with the state it leaves. -/
inductive StepEffect (s : State) : State → Prop
  | halted (halted : ¬ Running s) : StepEffect s s
  | fetchFault (running : Running s) (past : 4094 < s.pc.toNat) :
    StepEffect s (raise .fetchOutOfRange s.pc none s.pc.toNat s)
  | unrecognized (running : Running s) (inside : s.pc.toNat ≤ 4094) : StepEffect s (s.unrecognized (wordAtPc s))
  | executed (running : Running s) (inside : s.pc.toNat ≤ 4094) (i : Instr) (decoded : decode (wordAtPc s) = .ok i)
    (t : State) (effect : Effect s.advance i t) : StepEffect s t

theorem step_answers (s : State) : ∃ t, step s = .next t ∧ StepEffect s t := by
  by_cases running : Running s
  · obtain inside | past := le_or_gt s.pc.toNat 4094
    · cases h : decode (wordAtPc s) with
      | ok i =>
        obtain ⟨t, ht, effect⟩ := exec_answers i s.advance
        exact ⟨t, (step_of_decoded running inside h).trans ht, .executed running inside i h t effect⟩
      | error e => exact ⟨_, step_of_rejected running inside h, .unrecognized running inside⟩
    · exact ⟨_, step_of_fetch_past running past, .fetchFault running past⟩
  · exact ⟨s, step_of_halted running, .halted running⟩

theorem stepEffect_of_step {s t : State} (h : step s = .next t) : StepEffect s t := by
  obtain ⟨u, hu, effect⟩ := step_answers s
  obtain rfl := Host.Outcome.next.inj (hu.symm.trans h)
  exact effect

/-- Settles O12: every instruction answers by an effect, every step by a branch. -/
theorem everyStepAnswersANextState : Obligations.EveryStepAnswersANextState :=
  ⟨fun i s => (exec_answers i s).imp fun _ => And.left, fun s => (step_answers s).imp fun _ => And.left⟩

/-! ### Precise faults (60_exceptions.md R172, R173) -/

/-- An instruction either leaves `FAULT` as it is or raises one of its faults and does nothing else. -/
theorem Effect.fault_eq_or_raise {s t : State} {i : Instr} (effect : Effect s i t) :
    t.fault = s.fault ∨ ∃ code info, canRaise code i ∧ infoFits code info ∧
      t = raise code (s.pc - 2) (some (encode i)) info s := by
  cases effect with
  | raised _ code info can fits => exact .inr ⟨code, info, can, fits, (raise_eq s _ _ _ _).symm⟩
  | _ => exact .inl rfl

/-- A fault of the execute stage of a step: its record, and that it leaves only the fetch advance. -/
theorem executed_fault {s t : State} {i : Instr} {r : FaultRecord} (running : Running s)
    (decoded : decode (wordAtPc s) = .ok i) (effect : Effect s.advance i t) (hr : t.fault = some r) :
    canRaise r.code i ∧ infoFits r.code r.info ∧ r.addr = s.pc ∧ r.word = some (wordAtPc s) ∧ t.pc = s.pc + 2 ∧
      KeepsAllBut (fun p => p = .fault ∨ p = .pc) s t := by
  obtain same | ⟨code, info, can, fits, rfl⟩ := effect.fault_eq_or_raise
  · cases running.symm.trans (same.symm.trans hr)
  · have keeps := keeps_raise s.advance code (s.advance.pc - 2) (some (encode i)) info
    rw [raise_running (s := s.advance) running] at hr
    obtain rfl := Option.some.inj hr
    exact ⟨can, fits, BitVec.add_sub_cancel _ _, congrArg some (encodeOfDecodeIsTheWord _ i decoded),
      keeps .pc (by simp), ((keeps_setPc s _).mono fun _ => .inr).trans (keeps.mono fun _ => .inl)⟩

/-- Settles O13: only the fetch and the execute stage raise a fault, and each latches its record alone. -/
theorem faultsArePrecise : Obligations.FaultsArePrecise := by
  intro s t r running h hr
  cases stepEffect_of_step h with
  | halted halted => exact absurd running halted
  | fetchFault _ past =>
    have keeps := keeps_raise s .fetchOutOfRange s.pc none s.pc.toNat
    rw [raise_running running] at hr
    obtain rfl := Option.some.inj hr
    exact ⟨rfl, past, fun _ => ⟨rfl, keeps⟩, fun other => absurd rfl other⟩
  | unrecognized _ _ => cases running.symm.trans hr
  | executed _ _ i decoded _ effect =>
    obtain ⟨can, fits, addr, word, pc, keeps⟩ := executed_fault running decoded effect hr
    refine ⟨addr, fits, fun fetch => ?_, fun _ => ⟨word, ⟨i, decoded, can⟩, pc, keeps⟩⟩
    rw [fetch] at can
    exact can.elim

end Sys2Proof
end

section
/-! PROOFS. The invariant (10_state.md R25): each of its four parts is kept by every effect from an advanced `PC`, so by
every step. -/

namespace Sys2Proof

open Machine

theorem Effect.wf {s t : State} {i : Instr} (effect : Effect s i t) (h : Memory.wf s.mem = true) :
    Memory.wf t.mem = true := by
  cases effect with
  | stored _ bs _ size => exact Memory.wf_copy size h
  | _ => exact h

/-- A transfer of control stays in reach, a pop finds an address in reach, and every other effect keeps `PC`. -/
theorem Effect.pcInReach {s t : State} {i : Instr} (effect : Effect s i t) (low : 2 ≤ s.pc.toNat)
    (top : s.pc.toNat ≤ 4096) (h : StackInReach s) : PcInReach t := by
  unfold PcInReach
  cases effect with
  | transfer _ w reach => exact reach low top
  | called nnn k =>
    show (extAddr nnn).toNat ≤ 4350
    rw [toNat_extAddr]
    omega
  | returned k =>
    show s.stack[k].toNat ≤ 4350
    exact (h k).trans (by decide)
  | _ => exact top.trans (by decide)

/-- A `call` pushes an advanced `PC`, and every other effect keeps the slots. -/
theorem Effect.stackInReach {s t : State} {i : Instr} (effect : Effect s i t) (top : s.pc.toNat ≤ 4096)
    (h : StackInReach s) : StackInReach t := by
  cases effect with
  | called nnn k =>
    intro j
    by_cases hj : k = j
    · rw [← hj, stack_called_self]
      exact top
    · rw [show (s.called k nnn).stack[j] = s.stack[j] from
        Vector.getElem_set_ne k.isLt j.isLt fun h => hj (Fin.ext h)]
      exact h j
  | _ => exact h

/-- The record of a fault of `i` names `i`, at the address before the advance. -/
theorem Effect.faultPossible {s t : State} {i : Instr} (effect : Effect s i t) (low : 2 ≤ s.pc.toNat)
    (top : s.pc.toNat ≤ 4096) (running : Running s) :
    ∀ r, t.fault = some r → FaultRecord.Possible r := by
  intro r hr
  obtain same | ⟨code, info, can, fits, rfl⟩ := effect.fault_eq_or_raise
  · cases running.symm.trans (same.symm.trans hr)
  · rw [raise_running running] at hr
    obtain rfl := Option.some.inj hr
    have addr : (s.pc - 2).toNat ≤ Config.maxFetch := by simp only [Config.maxFetch]; bv_omega
    exact ⟨fits, addr, i, decode_encode i, can⟩

/-- Settles O14: a halted step keeps everything; a fetch fault latches its own `PC`; a rejected word advances a `PC`
that can be fetched from; an instruction starts from such an advanced `PC`. -/
theorem stepKeepsTheInvariant : Obligations.StepKeepsTheInvariant := by
  rintro s t ⟨wf, pc, stack, fault⟩ h
  cases stepEffect_of_step h with
  | halted _ => exact ⟨wf, pc, stack, fault⟩
  | fetchFault running past =>
    rw [raise_running running]
    refine ⟨wf, pc, stack, fun r hr => ?_⟩
    obtain rfl := Option.some.inj hr
    exact ⟨past, rfl, rfl⟩
  | unrecognized running inside =>
    have advanced : (s.pc + 2).toNat ≤ 4350 := by bv_omega
    exact ⟨wf, advanced, stack, fault⟩
  | executed running inside i _ _ effect =>
    have low : 2 ≤ s.advance.pc.toNat := by rw [State.advance_pc]; bv_omega
    have top : s.advance.pc.toNat ≤ 4096 := by rw [State.advance_pc]; bv_omega
    exact ⟨effect.wf wf, effect.pcInReach low top stack, effect.stackInReach top stack,
      effect.faultPossible low top running⟩

/-- Settles O15: nothing is listed, `PC` is 512, every slot 0, no fault. -/
theorem resetMeetsTheInvariant : Obligations.ResetMeetsTheInvariant := by
  refine ⟨State.reset_mem_wf, by unfold PcInReach; decide, fun k => ?_, fun r hr => by cases hr⟩
  rw [show State.reset.stack[k] = 0 from Vector.getElem_replicate _]
  decide

end Sys2Proof
end

section
/-! PROOFS. The host's commands (60_exceptions.md R191): the status of a step, ticks, views, `load` and `reset`. -/

namespace Sys2Proof

open Machine

/-! ### The step command and its status (R174) -/

theorem command_step {s t : State} (h : step s = .next t) : command .step s = .next (t, stepStatus s t) := by
  rw [command, h]

theorem stepStatus_of_halted {s : State} (h : ¬ Running s) (t : State) : stepStatus s t = .halted :=
  if_pos (halted_eq_true h)

section
variable {s t : State} (running : Running s)
include running

theorem stepStatus_of_noFault (h : t.fault = none) : stepStatus s t = .ok := by
  rw [stepStatus, halted_eq_false running, if_neg Bool.false_ne_true, h]

theorem stepStatus_of_fault {r : FaultRecord} (h : t.fault = some r) : stepStatus s t = .faulted r := by
  rw [stepStatus, halted_eq_false running, if_neg Bool.false_ne_true, h]

end

/-- Settles O9: the halted branch of the step, and its status. -/
theorem haltedStepChangesNothing : Obligations.HaltedStepChangesNothing := fun s halted =>
  ⟨step_of_halted halted, (command_step (step_of_halted halted)).trans (by rw [stepStatus_of_halted halted])⟩

/-- Settles O11: the status of a running core's step is read off `FAULT` after it. -/
theorem stepReportsOkOrItsFault : Obligations.StepReportsOkOrItsFault := by
  intro s running
  obtain ⟨t, ht, -⟩ := step_answers s
  exact ⟨t, _, ht, command_step ht, stepStatus_of_noFault running, fun _ => stepStatus_of_fault running⟩

/-! ### Ticks and views (R181, R182, R185) -/

theorem command_tick (s : State) : command .tick s = .next (s.tick, .none) := rfl

/-- Settles O52: each timer is counted down once. -/
theorem tickCountsBothTimersDown : Obligations.TickCountsBothTimersDown := fun s =>
  ⟨command_tick s, toNat_countDown s.delay, toNat_countDown s.sound, keeps_tick s⟩

theorem command_framebuffer (s : State) : command .framebuffer s = .next (s, .cells s.framebufferView) := rfl

theorem command_soundActive (s : State) : command .soundActive s = .next (s, .active s.soundActive) := rfl

/-- Settles O57: both views answer the state itself, and sound is active while `ST` is above 0. -/
theorem viewsOnlyRead : Obligations.ViewsOnlyRead := fun s =>
  ⟨command_framebuffer s, _, command_soundActive s, soundActive_iff_pos s⟩

/-! ### `load` (70_reset_and_hazards.md R202) -/

theorem command_load (bytes : List Byte) (s : State) : command (.load bytes) s = .next (s.load bytes) := rfl

theorem load_of_fits {bytes : List Byte} (h : bytes.length ≤ Config.maxProg) (s : State) :
    s.load bytes = ({ s with mem := Memory.copy s.mem Config.loadAddr bytes }, .ok) :=
  if_pos (decide_eq_true h)

theorem load_of_tooLong {bytes : List Byte} (h : Config.maxProg < bytes.length) (s : State) :
    s.load bytes = (s, .loadError) :=
  if_neg (by rw [Program.wf, decide_eq_true_eq]; exact Nat.not_le.mpr h)

/-- An image that fits ends within memory. -/
theorem loadAddr_add_le {n : Nat} (h : n ≤ Config.maxProg) : Config.loadAddr + n ≤ Config.memSize := by
  simp only [Config.loadAddr, Config.maxProg, Config.memSize] at *
  omega

/-- Settles O58: an image that fits is one copy to 512; a longer one leaves the state. -/
theorem loadCopiesTheImageOrRejects : Obligations.LoadCopiesTheImageOrRejects := by
  refine fun bytes s => ⟨fun wf fits => ?_, fun long => ?_⟩
  · refine ⟨_, by rw [command_load, load_of_fits fits], fun k hk => ?_, keeps_copy s Config.loadAddr bytes⟩
    exact Memory.read_copy_inside (loadAddr_add_le fits) wf hk
  · rw [command_load, load_of_tooLong long]

/-! ### `reset` (70_reset_and_hazards.md R200) -/

theorem command_reset (s : State) : command .reset s = .next (s.hostReset, .none) := rfl

theorem keeps_hostReset (s : State) :
    KeepsAllBut (fun p => p = .diagnostics ∨ p = .draws) State.reset s.hostReset := by
  intro p hp
  obtain ⟨diagnostics, draws⟩ := not_or.mp hp
  cases p with
  | diagnostics => exact absurd rfl diagnostics
  | draws => exact absurd rfl draws
  | _ => rfl

/-- Reset memory reads as the glyph table, then 0 (10_state.md R36). -/
theorem read_nil (a : Nat) : Memory.read [] a = Config.glyphs.getD a 0 := by
  rw [Memory.read, Memory.unlisted, Config.glyphBase, if_neg (Nat.not_lt_zero a), Nat.sub_zero]

theorem length_glyphs : Config.glyphs.length = 80 := by decide

/-- Settles O59: every value is that of `State.reset`. -/
theorem resetLeavesTheResetValues : Obligations.ResetLeavesTheResetValues := by
  refine fun s => ⟨_, command_reset s, keeps_hostReset s, rfl, rfl, rfl, rfl, rfl, rfl, fun k => ?_, fun k => ?_,
    fun k => ?_, Framebuffer.cell_clear, fun a h => ?_, fun a h => ?_⟩
  · exact Vector.getElem_replicate k.isLt
  · exact Vector.getElem_replicate k.isLt
  · exact Vector.getElem_replicate k.isLt
  · exact (read_nil a).trans (List.getD_eq_getElem _ _ h)
  · exact (read_nil a).trans (List.getD_eq_default _ _ (length_glyphs.trans_le h))

end Sys2Proof
end

section
/-! PROOFS. Runs of commands (60_exceptions.md R191): what every command keeps, every run keeps. -/

namespace Sys2Proof

open Machine

/-- A property that each command of a list keeps is kept by a run of the list. -/
theorem runCommands_keeps {P : State → Prop} {cs : List Command}
    (keeps : ∀ c ∈ cs, ∀ (s t : State) (a : Response), P s → command c s = .next (t, a) → P t) {s t : State} (hs : P s)
    (h : runCommands cs s = .next t) : P t := by
  induction cs generalizing s with
  | nil => exact Host.Outcome.next.inj h ▸ hs
  | cons c cs ih =>
    rw [runCommands] at h
    cases hc : command c s with
    | next r =>
      obtain ⟨u, a⟩ := r
      rw [hc] at h
      exact ih (fun d hd => keeps d (List.mem_cons_of_mem c hd)) (keeps c List.mem_cons_self s u a hs hc) h
    | fault f => rw [hc] at h; cases h
    | refused r => rw [hc] at h; cases h

/-! ### The invariant -/

theorem inv_load {s : State} (h : Inv s) (bytes : List Byte) : Inv (s.load bytes).1 := by
  obtain fits | long := le_or_gt bytes.length Config.maxProg
  · obtain ⟨wf, rest⟩ := h
    rw [load_of_fits fits]
    exact ⟨Memory.wf_copy (loadAddr_add_le fits) wf, rest⟩
  · rwa [load_of_tooLong long]

theorem command_keeps_inv {c : Command} {s t : State} {a : Response} (hs : Inv s) (h : command c s = .next (t, a)) :
    Inv t := by
  cases c with
  | reset => cases h; exact resetMeetsTheInvariant
  | load bytes => exact (Prod.mk.inj (Host.Outcome.next.inj h)).1 ▸ inv_load hs bytes
  | step =>
    obtain ⟨u, hu, -⟩ := step_answers s
    rw [command_step hu] at h
    cases h
    exact stepKeepsTheInvariant s _ hs hu
  | tick | setKey k pressed | framebuffer | soundActive => cases h; exact hs

/-- Settles O16: every command keeps the invariant, so every run does. -/
theorem commandsKeepTheInvariant : Obligations.CommandsKeepTheInvariant := fun _ _ _ =>
  runCommands_keeps fun _ _ _ _ _ => command_keeps_inv

/-! ### A latched fault (R174, R175) -/

/-- The fault, `PC` and the registers are those of `s`. -/
def HaltedAs (s t : State) : Prop := t.fault = s.fault ∧ t.pc = s.pc ∧ t.v = s.v

theorem haltedAs_load (s : State) (bytes : List Byte) : HaltedAs s (s.load bytes).1 := by
  unfold State.load
  split <;> exact ⟨rfl, rfl, rfl⟩

theorem command_keeps_halted {c : Command} {s t : State} {a : Response} (hc : c ≠ .reset) (halted : ¬ Running s)
    (h : command c s = .next (t, a)) : HaltedAs s t := by
  cases c with
  | reset => exact absurd rfl hc
  | load bytes => exact (Prod.mk.inj (Host.Outcome.next.inj h)).1 ▸ haltedAs_load s bytes
  | step =>
    rw [command_step (step_of_halted halted)] at h
    cases h
    exact ⟨rfl, rfl, rfl⟩
  | tick | setKey k pressed | framebuffer | soundActive => cases h; exact ⟨rfl, rfl, rfl⟩

/-- Settles O17: no command but `reset` moves a halted core or its fault, so no run without one does; `reset` leaves no
fault. -/
theorem onlyResetClearsAFault : Obligations.OnlyResetClearsAFault := by
  refine ⟨fun c s t a hc halted h => (command_keeps_halted hc halted h).1, fun cs s t hcs halted h => ?_,
    fun s t a h => by cases h; rfl⟩
  refine runCommands_keeps (P := HaltedAs s) (fun c mem u v a ⟨fault, pc, regs⟩ hu => ?_) ⟨rfl, rfl, rfl⟩ h
  have halted' : ¬ Running u := by rwa [Running, fault]
  obtain ⟨fault', pc', regs'⟩ := command_keeps_halted (ne_of_mem_of_not_mem mem hcs) halted' hu
  exact ⟨fault'.trans fault, pc'.trans pc, regs'.trans regs⟩

end Sys2Proof
end
